-- ==== Sys2Proof/Word.lean ====
section
/-! DEFINITION. The hardware's word types (spec/00_scope.md R4, R6, R19). -/

namespace Sys2Proof

/-- A 16-bit word: every register, memory cell, address and instruction (R4, `XLEN = ALEN = 16`). -/
abbrev Word := BitVec 16

/-- A byte of the input stream or the output trace, and a trap vector (R4 `VECBITS = 8`, R8). -/
abbrev Byte := BitVec 8

/-- A register field: three bits, selecting R0 to R7 directly (spec/30_encoding.md R82). -/
abbrev Reg := BitVec 3

end Sys2Proof
end

