-- ==== Sys2Proof/Config.lean ====
section
/-! DEFINITION. The configuration record of spec/00_scope.md R5 (its values are in Machine/Params.lean) and the free
values: what the environment answers, which no rule fixes. -/

namespace Sys2Proof

/-- The closed enumeration of the 14 opcodes (spec/30_encoding.md R84). -/
inductive Opcode where
  | add | and | not | br | jmp | jsr | ld | ldi | ldr | lea | st | sti | str | trap
  deriving DecidableEq, Repr

/-- The 14 opcodes in the order of the source's table (R85). -/
def Opcode.all : List Opcode :=
  [.add, .and, .not, .br, .jmp, .jsr, .ld, .ldi, .ldr, .lea, .st, .sti, .str, .trap]

/-- The named parameters of spec/00_scope.md R5. -/
structure Config.Params where
  /-- `PC_START`: PC at reset. -/
  pcStart : Word
  /-- `OPC_ADD` to `OPC_TRAP`: the opcode numbers. -/
  opcAdd : BitVec 4
  opcAnd : BitVec 4
  opcNot : BitVec 4
  opcBr : BitVec 4
  opcJmp : BitVec 4
  opcJsr : BitVec 4
  opcLd : BitVec 4
  opcLdi : BitVec 4
  opcLdr : BitVec 4
  opcLea : BitVec 4
  opcSt : BitVec 4
  opcSti : BitVec 4
  opcStr : BitVec 4
  opcTrap : BitVec 4
  /-- `MR_KBSR`: the keyboard-status address. -/
  kbsr : Word
  /-- `MR_KBDR`: the keyboard-data address. -/
  kbdr : Word
  /-- `FL_POS`, `FL_ZRO`, `FL_NEG`: the values of COND. -/
  flPos : Word
  flZro : Word
  flNeg : Word
  /-- `TV_GETC` to `TV_HALT`: the six trap vectors. -/
  tvGetc : Byte
  tvOut : Byte
  tvPuts : Byte
  tvIn : Byte
  tvPutsp : Byte
  tvHalt : Byte
  /-- `RESET_GPR`: R0 to R7 at reset. -/
  resetGpr : Word
  /-- `RESET_COND`: COND at reset. -/
  resetCond : Word
  /-- `EOS_VALUE`: the word delivered as the character at end of input. -/
  eosValue : Word
  /-- `IN_PROMPT`: the bytes the IN routine writes before reading. -/
  inPrompt : List Byte
  /-- `HALT_NOTICE`: the bytes the HALT routine writes. -/
  haltNotice : List Byte
  deriving DecidableEq, Repr

/-- The opcode map of R84 as a function on the closed enumeration. -/
def Config.Params.opcodeNumber (p : Config.Params) : Opcode → BitVec 4
  | .add => p.opcAdd
  | .and => p.opcAnd
  | .not => p.opcNot
  | .br => p.opcBr
  | .jmp => p.opcJmp
  | .jsr => p.opcJsr
  | .ld => p.opcLd
  | .ldi => p.opcLdi
  | .ldr => p.opcLdr
  | .lea => p.opcLea
  | .st => p.opcSt
  | .sti => p.opcSti
  | .str => p.opcStr
  | .trap => p.opcTrap

/-- The six trap vectors in the order of spec/45_trap.md R161. -/
def Config.Params.trapVectors (p : Config.Params) : List Byte :=
  [p.tvGetc, p.tvOut, p.tvPuts, p.tvIn, p.tvPutsp, p.tvHalt]

/-- The three values COND may hold (spec/10_state.md R24). -/
def Config.Params.flags (p : Config.Params) : List Word := [p.flPos, p.flZro, p.flNeg]

/-- The constraints R5 puts on any choice of the parameters: opcode numbers, keyboard addresses, flags and vectors
distinct, each flag a single bit within bits [2:0], COND reset to a flag. -/
abbrev Config.Params.Legal (p : Config.Params) : Prop :=
  (Opcode.all.map p.opcodeNumber).Nodup ∧ p.kbsr ≠ p.kbdr ∧ p.flags.Nodup ∧
    p.flags.all (fun f => f == 0x0001#16 || f == 0x0002#16 || f == 0x0004#16) = true ∧ p.trapVectors.Nodup ∧ p.resetCond ∈ p.flags

/-- What the environment does when the engine looks at an input stream whose continuation the state does not fix
(spec/10_state.md R30, spec/20_memory.md R54, spec/45_trap.md R169). -/
inductive Config.EnvAnswer where
  /-- A byte stands at the front of the stream. -/
  | byte (b : Byte)
  /-- The stream is at its end. -/
  | atEnd
  /-- Neither yet. -/
  | nothing
  deriving DecidableEq, Repr, Inhabited

/-- FREE VALUE (log 7): the environment's answer at the n-th keyboard event. No body: no proof can know it. -/
opaque Config.envAnswer : Nat → Config.EnvAnswer

/-- FREE VALUE (log 8): whether the n-th poll answers Ready where R54 leaves that to the environment (U7: a byte in the
stream may or may not be pending; D12 and U6: the answer at end of stream). No body: no proof can know it. -/
opaque Config.pollReady : Nat → Bool

end Sys2Proof
end

