-- ==== Sys2Proof/Machine/Params.lean ====
section
/-! DEFINITION. The values spec/00_scope.md R5 gives the parameters. The model takes a `Config.Params` as a named argument
(R5, R84); only the machine itself (`exec`, `step`, `State.reset`, `State.launch`) fixes it at these values. -/

namespace Sys2Proof.Machine

/-- The parameter record at the values of R5 (opcode numbers R84, vectors R161, keyboard addresses R55, flags R24).
UNVERIFIED, UNSAFE (log 10 to 18): the spec itself marks most of these numbers as its own decisions. -/
def params : Config.Params where
  pcStart := 0x3000#16
  opcAdd := 0b0001#4
  opcAnd := 0b0101#4
  opcNot := 0b1001#4
  opcBr := 0b0000#4
  opcJmp := 0b1100#4
  opcJsr := 0b0100#4
  opcLd := 0b0010#4
  opcLdi := 0b1010#4
  opcLdr := 0b0110#4
  opcLea := 0b1110#4
  opcSt := 0b0011#4
  opcSti := 0b1011#4
  opcStr := 0b0111#4
  opcTrap := 0b1111#4
  kbsr := 0xFE00#16
  kbdr := 0xFE02#16
  flPos := 0x0001#16
  flZro := 0x0002#16
  flNeg := 0x0004#16
  tvGetc := 0x20#8
  tvOut := 0x21#8
  tvPuts := 0x22#8
  tvIn := 0x23#8
  tvPutsp := 0x24#8
  tvHalt := 0x25#8
  resetGpr := 0x0000#16
  resetCond := 0x0002#16
  eosValue := 0xFFFF#16
  inPrompt :=
    [0x45#8, 0x6E#8, 0x74#8, 0x65#8, 0x72#8, 0x20#8, 0x61#8, 0x20#8, 0x63#8, 0x68#8, 0x61#8, 0x72#8, 0x61#8, 0x63#8,
      0x74#8, 0x65#8, 0x72#8, 0x3A#8, 0x20#8]
  haltNotice := [0x48#8, 0x41#8, 0x4C#8, 0x54#8, 0x0A#8]

end Sys2Proof.Machine
end

