-- ==== Sys2Proof/Syntax.lean ====
section
/-! DEFINITION. The instructions: one constructor per row of spec/opcode_table.json (spec/30_encoding.md R85, R86, R94). -/

namespace Sys2Proof

/-- The decoded forms with their fields (R82). Ignored bits (R87) are not kept. -/
inductive Instr where
  /-- ADD DR, SR1, SR2 -/
  | addReg (dr sr1 sr2 : Reg)
  /-- ADD DR, SR1, #imm5 -/
  | addImm (dr sr1 : Reg) (imm5 : BitVec 5)
  /-- AND DR, SR1, SR2 -/
  | andReg (dr sr1 sr2 : Reg)
  /-- AND DR, SR1, #imm5 -/
  | andImm (dr sr1 : Reg) (imm5 : BitVec 5)
  /-- NOT DR, SR -/
  | notReg (dr sr : Reg)
  /-- BR[n][z][p] off9: `cond3` is n, z, p from its high bit down -/
  | br (cond3 : BitVec 3) (off9 : BitVec 9)
  /-- JMP BaseR -/
  | jmp (baseR : Reg)
  /-- JSR off11 -/
  | jsr (off11 : BitVec 11)
  /-- JSRR BaseR -/
  | jsrr (baseR : Reg)
  /-- LD DR, off9 -/
  | ld (dr : Reg) (off9 : BitVec 9)
  /-- LDI DR, off9 -/
  | ldi (dr : Reg) (off9 : BitVec 9)
  /-- LDR DR, BaseR, off6 -/
  | ldr (dr baseR : Reg) (off6 : BitVec 6)
  /-- LEA DR, off9 -/
  | lea (dr : Reg) (off9 : BitVec 9)
  /-- ST SR, off9 -/
  | st (sr : Reg) (off9 : BitVec 9)
  /-- STI SR, off9 -/
  | sti (sr : Reg) (off9 : BitVec 9)
  /-- STR SR, BaseR, off6 -/
  | str (sr baseR : Reg) (off6 : BitVec 6)
  /-- TRAP vect8, for a vector without a routine (spec/45_trap.md R168) -/
  | trap (vect8 : Byte)
  /-- Opcode number 0b1000, undefined (R86); its low 12 bits -/
  | undef8 (low12 : BitVec 12)
  /-- Opcode number 0b1101, undefined (R86); its low 12 bits -/
  | undefD (low12 : BitVec 12)
  /-- TRAP with the vector of GETC (R162) -/
  | trapGetc
  /-- TRAP with the vector of OUT (R163) -/
  | trapOut
  /-- TRAP with the vector of PUTS (R164) -/
  | trapPuts
  /-- TRAP with the vector of IN (R165) -/
  | trapIn
  /-- TRAP with the vector of PUTSP (R166) -/
  | trapPutsp
  /-- TRAP with the vector of HALT (R167) -/
  | trapHalt
  deriving DecidableEq, Repr

end Sys2Proof
end

