-- ==== Sys2Proof/WellFormed.lean ====
section
/-! DEFINITION. Which terms of `Instr` an encoding stands for: the one decoding gives back (spec/30_encoding.md R94). -/

namespace Sys2Proof

/-- A vector that selects a routine has its own constructor, so `trap` holds none of the six (R94, spec/45_trap.md
R161). Every other field has exactly the width of its encoding. -/
def Instr.wf (p : Config.Params) : Instr → Bool
  | .trap v => !(p.trapVectors.contains v)
  | .addReg _ _ _ | .addImm _ _ _ | .andReg _ _ _ | .andImm _ _ _ | .notReg _ _ => true
  | .br _ _ | .jmp _ | .jsr _ | .jsrr _ => true
  | .ld _ _ | .ldi _ _ | .ldr _ _ _ | .lea _ _ => true
  | .st _ _ | .sti _ _ | .str _ _ _ => true
  | .undef8 _ | .undefD _ => true
  | .trapGetc | .trapOut | .trapPuts | .trapIn | .trapPutsp | .trapHalt => true

end Sys2Proof
end

