-- ==== Sys2Proof/Decode.lean ====
section
/-! DEFINITION. The decoder and the encoder (spec/30_encoding.md), at any opcode map and any trap vectors: R84 asks for
the map as a configuration table. -/

namespace Sys2Proof

/-- The opcode a number names, if any (R84, R86): the inverse of the opcode map of the configuration. -/
def opcodeOf (p : Config.Params) (n : BitVec 4) : Option Opcode :=
  Opcode.all.find? (fun o => p.opcodeNumber o == n)

/-- The numbers that no opcode has, in rising order (R86): two of the sixteen, where the map is injective. -/
def undefinedNumbers (p : Config.Params) : List (BitVec 4) :=
  ((List.range 16).map (BitVec.ofNat 4)).filter (fun n => (opcodeOf p n).isNone)

/-- The lower undefined number, row UNDEF_8: 0b1000 with the numbers of R84. -/
def undefinedLow (p : Config.Params) : BitVec 4 := (undefinedNumbers p).headD 0b1000#4

/-- The higher undefined number, row UNDEF_D: 0b1101 with the numbers of R84. -/
def undefinedHigh (p : Config.Params) : BitVec 4 := (undefinedNumbers p).getLastD 0b1101#4

/-- Which TRAP row a vector selects (R94, spec/45_trap.md R161). -/
def decodeTrap (p : Config.Params) (vect8 : Byte) : Instr :=
  if vect8 = p.tvGetc then .trapGetc
  else if vect8 = p.tvOut then .trapOut
  else if vect8 = p.tvPuts then .trapPuts
  else if vect8 = p.tvIn then .trapIn
  else if vect8 = p.tvPutsp then .trapPutsp
  else if vect8 = p.tvHalt then .trapHalt
  else .trap vect8

/-- `Decode(ir)` (R92): look at [15:12], for ADD and AND at bit 5, for JSR at bit 11; the fields are R82's. -/
def decodeWord (p : Config.Params) (ir : Word) : Instr :=
  match opcodeOf p (ir.extractLsb' 12 4) with
  | some .add =>
    if ir.extractLsb' 5 1 = 1#1 then .addImm (ir.extractLsb' 9 3) (ir.extractLsb' 6 3) (ir.extractLsb' 0 5)
    else .addReg (ir.extractLsb' 9 3) (ir.extractLsb' 6 3) (ir.extractLsb' 0 3)
  | some .and =>
    if ir.extractLsb' 5 1 = 1#1 then .andImm (ir.extractLsb' 9 3) (ir.extractLsb' 6 3) (ir.extractLsb' 0 5)
    else .andReg (ir.extractLsb' 9 3) (ir.extractLsb' 6 3) (ir.extractLsb' 0 3)
  | some .not => .notReg (ir.extractLsb' 9 3) (ir.extractLsb' 6 3)
  | some .br => .br (ir.extractLsb' 9 3) (ir.extractLsb' 0 9)
  | some .jmp => .jmp (ir.extractLsb' 6 3)
  | some .jsr => if ir.extractLsb' 11 1 = 1#1 then .jsr (ir.extractLsb' 0 11) else .jsrr (ir.extractLsb' 6 3)
  | some .ld => .ld (ir.extractLsb' 9 3) (ir.extractLsb' 0 9)
  | some .ldi => .ldi (ir.extractLsb' 9 3) (ir.extractLsb' 0 9)
  | some .ldr => .ldr (ir.extractLsb' 9 3) (ir.extractLsb' 6 3) (ir.extractLsb' 0 6)
  | some .lea => .lea (ir.extractLsb' 9 3) (ir.extractLsb' 0 9)
  | some .st => .st (ir.extractLsb' 9 3) (ir.extractLsb' 0 9)
  | some .sti => .sti (ir.extractLsb' 9 3) (ir.extractLsb' 0 9)
  | some .str => .str (ir.extractLsb' 9 3) (ir.extractLsb' 6 3) (ir.extractLsb' 0 6)
  | some .trap => decodeTrap p (ir.extractLsb' 0 8)
  | none =>
    if ir.extractLsb' 12 4 = undefinedLow p then .undef8 (ir.extractLsb' 0 12) else .undefD (ir.extractLsb' 0 12)

/-- Why a sequence of words has no first instruction. -/
inductive DecodeRefusal where
  /-- There is no word to decode. Raised by `decode` on the empty list; safe. -/
  | noWord
  deriving DecidableEq, Repr

/-- The decoder over a sequence of words: the first instruction and the words after it (R80: one word each). -/
def decode (p : Config.Params) : List Word → Except DecodeRefusal (Instr × List Word)
  | [] => .error .noWord
  | ir :: rest => .ok (decodeWord p ir, rest)

/-- The four-field formats of R81: [15:12], [11:9], [8:6], [5:0]. -/
def word6 (op : BitVec 4) (hi mid : BitVec 3) (low6 : BitVec 6) : Word := op ++ hi ++ mid ++ low6

/-- The three-field formats of R81: [15:12], [11:9], [8:0]. -/
def word9 (op : BitVec 4) (hi : BitVec 3) (low9 : BitVec 9) : Word := op ++ hi ++ low9

/-- The two-field formats of R81: [15:12], [11:0]. -/
def word12 (op : BitVec 4) (low12 : BitVec 12) : Word := op ++ low12

/-- Bits [5:0] of the register form: bit 5 clear, [4:3] ignored, SR2 (format OPR). -/
def low6Reg (sr2 : Reg) : BitVec 6 := 0b0#1 ++ 0b00#2 ++ sr2

/-- Bits [5:0] of the immediate form: bit 5 set, imm5 (format OPI). -/
def low6Imm (imm5 : BitVec 5) : BitVec 6 := 0b1#1 ++ imm5

/-- Bits [11:0] of JSR: bit 11 set, off11 (format JSR). -/
def low12Jsr (off11 : BitVec 11) : BitVec 12 := 0b1#1 ++ off11

/-- Bits [11:0] of TRAP: [11:8] ignored, vect8 (format TRAP). -/
def low12Trap (vect8 : Byte) : BitVec 12 := 0b0000#4 ++ vect8

/-- The encoding of an instruction, field by field from the patterns of R85, with 0 in every ignored bit (R87). For JSRR
bits [11:9] are the clear flag bit 11 and two ignored bits. -/
def encode (p : Config.Params) : Instr → Word
  | .addReg dr sr1 sr2 => word6 p.opcAdd dr sr1 (low6Reg sr2)
  | .addImm dr sr1 imm5 => word6 p.opcAdd dr sr1 (low6Imm imm5)
  | .andReg dr sr1 sr2 => word6 p.opcAnd dr sr1 (low6Reg sr2)
  | .andImm dr sr1 imm5 => word6 p.opcAnd dr sr1 (low6Imm imm5)
  | .notReg dr sr => word6 p.opcNot dr sr 0b000000#6
  | .br cond3 off9 => word9 p.opcBr cond3 off9
  | .jmp baseR => word6 p.opcJmp 0b000#3 baseR 0b000000#6
  | .jsr off11 => word12 p.opcJsr (low12Jsr off11)
  | .jsrr baseR => word6 p.opcJsr 0b000#3 baseR 0b000000#6
  | .ld dr off9 => word9 p.opcLd dr off9
  | .ldi dr off9 => word9 p.opcLdi dr off9
  | .ldr dr baseR off6 => word6 p.opcLdr dr baseR off6
  | .lea dr off9 => word9 p.opcLea dr off9
  | .st sr off9 => word9 p.opcSt sr off9
  | .sti sr off9 => word9 p.opcSti sr off9
  | .str sr baseR off6 => word6 p.opcStr sr baseR off6
  | .trap vect8 => word12 p.opcTrap (low12Trap vect8)
  | .undef8 low12 => word12 (undefinedLow p) low12
  | .undefD low12 => word12 (undefinedHigh p) low12
  | .trapGetc => word12 p.opcTrap (low12Trap p.tvGetc)
  | .trapOut => word12 p.opcTrap (low12Trap p.tvOut)
  | .trapPuts => word12 p.opcTrap (low12Trap p.tvPuts)
  | .trapIn => word12 p.opcTrap (low12Trap p.tvIn)
  | .trapPutsp => word12 p.opcTrap (low12Trap p.tvPutsp)
  | .trapHalt => word12 p.opcTrap (low12Trap p.tvHalt)

/-- The words of an instruction given as its bits: one word (R80), the bits above `nbits` zero. -/
def tableWords (nbits w : Nat) : List Word := [BitVec.ofNat 16 (w % 2 ^ nbits)]

/-- The instruction the decoder reads from an instruction whose bits are `w`. -/
def decodeTableWord (nbits w : Nat) : Option Instr :=
  match decode Machine.params (tableWords nbits w) with
  | .ok (i, _) => some i
  | .error _ => none

end Sys2Proof
end

