-- ==== Sys2Proof/Machine/Bits.lean ====
section
/-! DEFINITION. Bit-field helpers of spec/00_scope.md: sign extension R7, zero extension and halves of a word R8. -/

namespace Sys2Proof.Machine

/-- A signed field as a 16-bit word (R7 applied to a field already extracted). -/
def sextField {n : Nat} (f : BitVec n) : Word := f.signExtend 16

/-- `sext_N(v)` (R7): the low `n` bits of `v`, bit `n - 1` copied upward. -/
def sext (n : Nat) (v : Word) : Word := sextField (v.extractLsb' 0 n)

/-- `zext_16(b)` (R8). -/
def zext16 (b : Byte) : Word := b.setWidth 16

/-- `low8(w) = w[7:0]` (R8). -/
def low8 (w : Word) : Byte := w.extractLsb' 0 8

/-- `high8(w) = w[15:8]` (R8). -/
def high8 (w : Word) : Byte := w.extractLsb' 8 8

end Sys2Proof.Machine
end

