-- ==== Sys2Proof/Machine/State.lean ====
section
/-! DEFINITION. The machine's state as plain data, its reset value, and the reasons a step can stop
(spec/10_state.md). -/

namespace Sys2Proof.Machine

/-- `run` (R29): the run state. -/
inductive RunState where
  | running
  | halted
  | aborted
  deriving DecidableEq, Repr

/-- A TRAP routine whose step has begun and not completed: the blocking read of GETC and IN (spec/40_cycle.md R116),
and the PUTS and PUTSP loops over a memory with no zero word (spec/45_trap.md R173). DESIGN CHOICE, safe (log 5, 6). -/
inductive Hold where
  | getc
  /-- IN, its prompt already written. -/
  | input
  | puts
  | putsp
  deriving DecidableEq, Repr

/-- What follows the listed bytes of the input stream (R30). DESIGN CHOICE, safe (log 7). -/
inductive Supply where
  /-- The stream is finite and ends there. -/
  | ended
  /-- The environment neither delivers another byte nor ends the stream (R116: "If neither ever happens"). -/
  | withheld
  /-- Not fixed: the free value `Config.envAnswer` decides when the engine looks. -/
  | unfixed
  deriving DecidableEq, Repr

/-- Memory (R27): word cells by address, the addresses strictly rising, none at the value an unlisted address reads as.
The smallest addressable unit is the 16-bit word (spec/20_memory.md R50; log 1). -/
abbrev Memory := List (Nat × Word)

/-- The whole state (R35) with the environment pair `in`, `out` (R30). -/
structure State where
  /-- R0 to R7 (R20). -/
  regs : Vector Word 8
  /-- The program counter (R22). -/
  pc : Word
  /-- COND (R24). -/
  cond : Word
  /-- The memory (R27). -/
  mem : Memory
  /-- The run state (R29). -/
  run : RunState
  /-- A routine that has begun and not completed (spec/40_cycle.md R116, spec/45_trap.md R173). -/
  hold : Option Hold
  /-- `in` (R30): the bytes still to come, the front first. -/
  inp : List Byte
  /-- `in` (R30): what follows those bytes. -/
  supply : Supply
  /-- `out` (R30): the bytes emitted, the oldest first. -/
  out : List Byte
  /-- The model's own: answers to coming polls fixed in advance (spec/92_eei_decisions.md, "the poll oracle"; log 8). -/
  oracle : List Bool
  /-- The model's own: how many keyboard events have happened, the argument of the free values (log 7, 8). -/
  draws : Nat
  deriving DecidableEq, Repr

/-- The reset state (R32, R33, spec/70_reset_and_hazards.md R210) at any parameters (spec/00_scope.md R5), with no image
loaded and nothing of the input stream fixed. The model's own fields take the values of log 9 (DESIGN CHOICE). -/
def State.resetWith (p : Config.Params) : State where
  regs := Vector.replicate 8 p.resetGpr
  pc := p.pcStart
  cond := p.resetCond
  mem := []
  run := .running
  hold := none
  inp := []
  supply := .unfixed
  out := []
  oracle := []
  draws := 0

/-- The reset state at the spec's values of the parameters. -/
def State.reset : State := State.resetWith params

/-- Why no step is enabled (spec/40_cycle.md R113). -/
inductive Fault where
  /-- `run` is HALTED, the normal end. Raised by `step` alone; safe: "HALTED is terminal". -/
  | halted
  /-- `run` is ABORTED, the fault end. Raised by `step` alone; safe: a decode error is "fatal". -/
  | aborted
  deriving DecidableEq, Repr

/-- Why an instruction has no meaning. -/
inductive Refusal where
  /-- The instruction has no meaning in the model. Raised by an arm of `exec` alone (no arm does); safe. -/
  | notModelled (mnemonic : String)
  deriving DecidableEq, Repr

end Sys2Proof.Machine
end

