-- ==== Sys2Proof/Machine/Ops.lean ====
section
/-! DEFINITION. The named operations over registers, memory, the keyboard, the console and the run state
(spec/10_state.md, spec/20_memory.md, spec/45_trap.md section 3, spec/60_exceptions.md section 1). An operation that rests
on a parameter of spec/00_scope.md R5 takes the parameter record `p`. -/

namespace Sys2Proof.Machine

/-! Registers -/

/-- `x[i]` (spec/10_state.md R20). No register is hard-wired. -/
def State.reg (s : State) (i : Reg) : Word := s.regs[i.toNat]'i.isLt

/-- `x[i] <- v` (R20). -/
def State.setReg (s : State) (i : Reg) (v : Word) : State := { s with regs := s.regs.set i.toNat v i.isLt }

/-- `pc <- v` (R22). -/
def State.setPc (s : State) (v : Word) : State := { s with pc := v }

/-- `cond <- v` (R24); written by `setCC` alone. -/
def State.setCond (s : State) (v : Word) : State := { s with cond := v }

/-- The register file by its index 0 to 9 (R21): R0 to R7, then PC, then COND. No instruction can form 8 or 9. -/
def State.regIndexed (s : State) (k : Fin 10) : Word :=
  if h : k.val < 8 then s.regs[k.val] else if k.val = 8 then s.pc else s.cond

/-! Memory -/

/-- What an address that memory does not list reads as: memory is zero-filled (R33). -/
def Memory.unlisted : Word := 0x0000#16

/-- The cell at a key. -/
def Memory.lookup : Memory → Nat → Word
  | [], _ => Memory.unlisted
  | (a, w) :: rest, k => if a = k then w else Memory.lookup rest k

/-- Put a cell in its place among cells of other addresses. -/
def Memory.insert : Memory → Nat → Word → Memory
  | [], k, v => [(k, v)]
  | (a, w) :: rest, k, v => if k < a then (k, v) :: (a, w) :: rest else (a, w) :: Memory.insert rest k v

/-- `mem[a]` (R27). -/
def Memory.read (m : Memory) (a : Word) : Word := Memory.lookup m a.toNat

/-- `mem[a] <- v` (R27), keeping the canonical form. -/
def Memory.write (m : Memory) (a : Word) (v : Word) : Memory :=
  let others := m.filter (fun c => c.1 != a.toNat)
  if v = Memory.unlisted then others else Memory.insert others a.toNat v

/-- The canonical form: addresses within the 65536 cells and strictly rising, no cell at the unlisted value. -/
abbrev Memory.wf (m : Memory) : Prop :=
  m.Pairwise (fun c d => c.1 < d.1) ∧ ∀ c ∈ m, c.1 < 65536 ∧ c.2 ≠ Memory.unlisted

/-- `MemPeek(a)` (spec/20_memory.md R53): no side effect at any address. -/
def State.memPeek (s : State) (a : Word) : Word := s.mem.read a

/-- `MemWrite(a, v)` (R52): a plain store at every address. -/
def State.memWrite (s : State) (a v : Word) : State := { s with mem := s.mem.write a v }

/-! The run state, holds and the console -/

/-- `run <- r` (spec/10_state.md R29). -/
def State.setRun (s : State) (r : RunState) : State := { s with run := r }

/-- Begin or end the hold of a routine (spec/40_cycle.md R116, spec/45_trap.md R173). -/
def State.setHold (s : State) (h : Option Hold) : State := { s with hold := h }

/-- `Out(b)` for each byte of `bs` in order (spec/45_trap.md R170). -/
def State.emit (s : State) (bs : List Byte) : State := { s with out := s.out ++ bs }

/-- `raise DecodeError(ir)` (spec/60_exceptions.md R181), the one exception: nothing is saved, no handler runs, no
instruction returns from it (R189), `ir` is recorded nowhere. `pc` was incremented before decoding. -/
def State.raiseDecodeError (s : State) : State := s.setRun .aborted

/-! The keyboard -/

/-- Where the state fixes no further input, let the environment show what stands at the front of the stream
(spec/10_state.md R30; free value, log 7). -/
def State.settle (s : State) : State :=
  match s.inp, s.supply with
  | [], .unfixed =>
    match Config.envAnswer s.draws with
    | .byte b => { s with inp := [b] }
    | .atEnd => { s with supply := .ended }
    | .nothing => s
  | _, _ => s

/-- The draw of a poll: whether it answers Ready where R54 leaves that open (free value, log 8). -/
def State.pollDraw (s : State) : Bool :=
  match s.oracle with
  | r :: _ => r
  | [] => Config.pollReady s.draws

/-- The result of `KbdPoll()` (spec/20_memory.md R54). -/
inductive PollAnswer where
  | ready (w : Word)
  | notReady
  deriving DecidableEq, Repr

/-- `KbdPoll()` (R54), non-blocking: a pending byte is consumed; at end of stream the answer is a draw that consumes
nothing; otherwise NotReady. -/
def State.kbdPoll (p : Config.Params) (s : State) : PollAnswer × State :=
  let t := { s.settle with oracle := s.oracle.tail, draws := s.draws + 1 }
  match t.inp, t.supply with
  | b :: rest, _ => if s.pollDraw then (.ready (zext16 b), { t with inp := rest }) else (.notReady, t)
  | [], .ended => if s.pollDraw then (.ready p.eosValue, t) else (.notReady, t)
  | [], _ => (.notReady, t)

/-- `KbdGet()` (spec/45_trap.md R169): a byte, or `EOS_VALUE` at end of stream, or nothing yet (the caller holds). -/
def State.kbdGet (p : Config.Params) (s : State) : Option Word × State :=
  let t := { s.settle with draws := s.draws + 1 }
  match t.inp, t.supply with
  | b :: rest, _ => (some (zext16 b), { t with inp := rest })
  | [], .ended => (some p.eosValue, t)
  | [], _ => (none, t)

/-- The keyboard cells after a poll's answer (R51): the status word is assigned whole; NotReady leaves the data cell. -/
def State.storePoll (p : Config.Params) (s : State) : PollAnswer → State
  | .ready w => (s.memWrite p.kbsr 0x8000#16).memWrite p.kbdr w
  | .notReady => s.memWrite p.kbsr 0x0000#16

/-- `MemRead(a)` (R51): a read of the keyboard-status address polls first; every read returns the cell. -/
def State.memRead (p : Config.Params) (s : State) (a : Word) : Word × State :=
  if a = p.kbsr then
    let t := (s.kbdPoll p).2.storePoll p (s.kbdPoll p).1
    (t.mem.read a, t)
  else (s.mem.read a, s)

/-! Fetching -/

/-- The fetch and the increment of a step (spec/40_cycle.md R110): the instruction word, and the state in which it
executes. -/
def State.fetch (p : Config.Params) (s : State) : Word × State :=
  let r := s.memRead p s.pc
  (r.1, r.2.setPc (r.2.pc + 1#16))

end Sys2Proof.Machine
end

