-- ==== Sys2Proof/Machine/Flags.lean ====
section
/-! DEFINITION. The condition flags (spec/10_state.md R24, R25) and BR's test of them (spec/42_control.md R130). -/

namespace Sys2Proof.Machine

/-- The flag of a written value (R25): ZERO, else NEGATIVE by bit 15, else POSITIVE. -/
def flagOf (p : Config.Params) (v : Word) : Word :=
  if v = 0x0000#16 then p.flZro else if v.getLsbD 15 then p.flNeg else p.flPos

/-- `SetCC(i)` (R25): from the value just written to register `i`. -/
def State.setCC (p : Config.Params) (s : State) (i : Reg) : State := s.setCond (flagOf p (s.reg i))

/-- `x[DR] <- v ; SetCC(DR)`, the ending of every flag-setting instruction (R26). -/
def State.setRegCC (p : Config.Params) (s : State) (dr : Reg) (v : Word) : State := (s.setReg dr v).setCC p dr

/-- `(cond3 & cond[2:0]) != 0` (R130). -/
def State.condTest (s : State) (cond3 : BitVec 3) : Bool := cond3 &&& s.cond.extractLsb' 0 3 != 0#3

end Sys2Proof.Machine
end

