-- ==== Sys2Proof/Machine/Operands.lean ====
section
/-! DEFINITION. The operand forms: immediates (spec/30_encoding.md R83) and the addressing modes (spec/43_load.md R144).
`pc` is the incremented program counter throughout. -/

namespace Sys2Proof.Machine

/-- The second operand of ADD and AND in immediate form: `sext_5(imm5)` (R83). -/
def immOperand (imm5 : BitVec 5) : Word := sextField imm5

/-- PC-relative: `pc + sext_9(off9)` (R144, R59). -/
def State.pcRel9 (s : State) (off9 : BitVec 9) : Word := s.pc + sextField off9

/-- The target of JSR: `pc + sext_11(off11)` (spec/42_control.md R132). -/
def State.pcRel11 (s : State) (off11 : BitVec 11) : Word := s.pc + sextField off11

/-- Base plus offset: `x[BaseR] + sext_6(off6)` (R144). -/
def State.baseOffset (s : State) (baseR : Reg) (off6 : BitVec 6) : Word := s.reg baseR + sextField off6

/-- Indirect: the pointer that `MemRead` returns at the PC-relative address (R144), and the state after that read. -/
def State.indirect (p : Config.Params) (s : State) (off9 : BitVec 9) : Word × State := s.memRead p (s.pcRel9 off9)

end Sys2Proof.Machine
end

