-- ==== Sys2Proof/Machine/Control.lean ====
section
/-! DEFINITION. BR, JMP, JSR, JSRR (spec/42_control.md). No memory access, no write of COND. -/

namespace Sys2Proof.Machine

/-- The link register R7 (R132, R133). -/
def linkReg : Reg := 7#3

/-- BR (R130). -/
def execBr (cond3 : BitVec 3) (off9 : BitVec 9) (s : State) : Host.Outcome State Fault Refusal :=
  .next (if s.condTest cond3 then s.setPc (s.pcRel9 off9) else s)

/-- JMP (R131). -/
def execJmp (baseR : Reg) (s : State) : Host.Outcome State Fault Refusal :=
  .next (s.setPc (s.reg baseR))

/-- JSR (R132): R7 takes the incremented pc, then pc moves from that same value. -/
def execJsr (off11 : BitVec 11) (s : State) : Host.Outcome State Fault Refusal :=
  .next ((s.setReg linkReg s.pc).setPc (s.pcRel11 off11))

/-- JSRR (R133): R7 is written first and BaseR read after, which shows when BaseR is R7 (log 21). -/
def execJsrr (baseR : Reg) (s : State) : Host.Outcome State Fault Refusal :=
  let t := s.setReg linkReg s.pc
  .next (t.setPc (t.reg baseR))

end Sys2Proof.Machine
end

