-- ==== Sys2Proof/Machine/Load.lean ====
section
/-! DEFINITION. LD, LDI, LDR, LEA (spec/43_load.md). Every data and pointer read is a `MemRead` and so may poll. -/

namespace Sys2Proof.Machine

/-- LD (R140). -/
def execLdWith (p : Config.Params) (dr : Reg) (off9 : BitVec 9) (s : State) : Host.Outcome State Fault Refusal :=
  let d := s.memRead p (s.pcRel9 off9)
  .next (d.2.setRegCC p dr d.1)

/-- LD (R140) at the spec's values of the parameters. -/
def execLd (dr : Reg) (off9 : BitVec 9) (s : State) : Host.Outcome State Fault Refusal := execLdWith params dr off9 s

/-- LDI (R141): the pointer read, then the data read. -/
def execLdiWith (p : Config.Params) (dr : Reg) (off9 : BitVec 9) (s : State) : Host.Outcome State Fault Refusal :=
  let q := s.indirect p off9
  let d := q.2.memRead p q.1
  .next (d.2.setRegCC p dr d.1)

/-- LDI (R141) at the spec's values of the parameters. -/
def execLdi (dr : Reg) (off9 : BitVec 9) (s : State) : Host.Outcome State Fault Refusal := execLdiWith params dr off9 s

/-- LDR (R142): the address comes from BaseR before DR is written. -/
def execLdrWith (p : Config.Params) (dr baseR : Reg) (off6 : BitVec 6) (s : State) : Host.Outcome State Fault Refusal :=
  let d := s.memRead p (s.baseOffset baseR off6)
  .next (d.2.setRegCC p dr d.1)

/-- LDR (R142) at the spec's values of the parameters. -/
def execLdr (dr baseR : Reg) (off6 : BitVec 6) (s : State) : Host.Outcome State Fault Refusal :=
  execLdrWith params dr baseR off6 s

/-- LEA (R143): the address itself, no access, flags from it. -/
def execLeaWith (p : Config.Params) (dr : Reg) (off9 : BitVec 9) (s : State) : Host.Outcome State Fault Refusal :=
  .next (s.setRegCC p dr (s.pcRel9 off9))

/-- LEA (R143) at the spec's values of the parameters. -/
def execLea (dr : Reg) (off9 : BitVec 9) (s : State) : Host.Outcome State Fault Refusal := execLeaWith params dr off9 s

end Sys2Proof.Machine
end

