-- ==== Sys2Proof/Machine/Operate.lean ====
section
/-! DEFINITION. ADD, AND, NOT (spec/41_operate.md). Sources are read before DR is written; sums are modulo 2^16. -/

namespace Sys2Proof.Machine

/-- ADD, register form (R120). -/
def execAddRegWith (p : Config.Params) (dr sr1 sr2 : Reg) (s : State) : Host.Outcome State Fault Refusal :=
  .next (s.setRegCC p dr (s.reg sr1 + s.reg sr2))

/-- ADD, register form (R120), at the spec's values of the parameters. -/
def execAddReg (dr sr1 sr2 : Reg) (s : State) : Host.Outcome State Fault Refusal := execAddRegWith params dr sr1 sr2 s

/-- ADD, immediate form (R121). -/
def execAddImmWith (p : Config.Params) (dr sr1 : Reg) (imm5 : BitVec 5) (s : State) :
    Host.Outcome State Fault Refusal :=
  .next (s.setRegCC p dr (s.reg sr1 + immOperand imm5))

/-- ADD, immediate form (R121), at the spec's values of the parameters. -/
def execAddImm (dr sr1 : Reg) (imm5 : BitVec 5) (s : State) : Host.Outcome State Fault Refusal :=
  execAddImmWith params dr sr1 imm5 s

/-- AND, register form (R122). -/
def execAndRegWith (p : Config.Params) (dr sr1 sr2 : Reg) (s : State) : Host.Outcome State Fault Refusal :=
  .next (s.setRegCC p dr (s.reg sr1 &&& s.reg sr2))

/-- AND, register form (R122), at the spec's values of the parameters. -/
def execAndReg (dr sr1 sr2 : Reg) (s : State) : Host.Outcome State Fault Refusal := execAndRegWith params dr sr1 sr2 s

/-- AND, immediate form (R123). -/
def execAndImmWith (p : Config.Params) (dr sr1 : Reg) (imm5 : BitVec 5) (s : State) :
    Host.Outcome State Fault Refusal :=
  .next (s.setRegCC p dr (s.reg sr1 &&& immOperand imm5))

/-- AND, immediate form (R123), at the spec's values of the parameters. -/
def execAndImm (dr sr1 : Reg) (imm5 : BitVec 5) (s : State) : Host.Outcome State Fault Refusal :=
  execAndImmWith params dr sr1 imm5 s

/-- NOT (R124). -/
def execNotRegWith (p : Config.Params) (dr sr : Reg) (s : State) : Host.Outcome State Fault Refusal :=
  .next (s.setRegCC p dr (~~~ s.reg sr))

/-- NOT (R124) at the spec's values of the parameters. -/
def execNotReg (dr sr : Reg) (s : State) : Host.Outcome State Fault Refusal := execNotRegWith params dr sr s

end Sys2Proof.Machine
end

