-- ==== Sys2Proof/Machine/Store.lean ====
section
/-! DEFINITION. ST, STI, STR (spec/44_store.md). No register, pc or COND is written. -/

namespace Sys2Proof.Machine

/-- ST (R150). -/
def execSt (sr : Reg) (off9 : BitVec 9) (s : State) : Host.Outcome State Fault Refusal :=
  .next (s.memWrite (s.pcRel9 off9) (s.reg sr))

/-- STI (R151): the pointer read, a `MemRead`, comes first. -/
def execStiWith (p : Config.Params) (sr : Reg) (off9 : BitVec 9) (s : State) : Host.Outcome State Fault Refusal :=
  let q := s.indirect p off9
  .next (q.2.memWrite q.1 (q.2.reg sr))

/-- STI (R151) at the spec's values of the parameters. -/
def execSti (sr : Reg) (off9 : BitVec 9) (s : State) : Host.Outcome State Fault Refusal := execStiWith params sr off9 s

/-- STR (R152). -/
def execStr (sr baseR : Reg) (off6 : BitVec 6) (s : State) : Host.Outcome State Fault Refusal :=
  .next (s.memWrite (s.baseOffset baseR off6) (s.reg sr))

end Sys2Proof.Machine
end

