-- ==== Sys2Proof/Machine/Trap.lean ====
section
/-! DEFINITION. TRAP and the routines of the trap table (spec/45_trap.md). No routine writes pc, R7 or COND (R171); a
flush has no effect (R172). -/

namespace Sys2Proof.Machine

/-- R0, the argument and result register of the routines (spec/10_state.md R20). -/
def trapReg : Reg := 0#3

/-- GETC (R162): while there is nothing to read the step holds (spec/40_cycle.md R116). -/
def routineGetc (p : Config.Params) (s : State) : State :=
  match s.kbdGet p with
  | (some w, t) => (t.setReg trapReg w).setHold none
  | (none, t) => t.setHold (some .getc)

/-- OUT (R163). -/
def routineOut (s : State) : State := s.emit [low8 (s.reg trapReg)]

/-- The bytes a PUTS word emits: its low byte (R164). -/
def putsBytes (w : Word) : List Byte := [low8 w]

/-- The bytes a PUTSP word emits: the low byte always, then the high byte unless it is zero (R166). -/
def putspBytes (w : Word) : List Byte := if high8 w = 0x00#8 then [low8 w] else [low8 w, high8 w]

/-- The string loop of R164 and R166 from `a`, at most `fuel` words: the bytes emitted, and whether a zero word ended
it. The address wraps. -/
def stringWalk (bytesOf : Word → List Byte) (m : Memory) : Nat → Word → List Byte × Bool
  | 0, _ => ([], false)
  | fuel + 1, a =>
    if m.read a = 0x0000#16 then ([], true)
    else
      let rest := stringWalk bytesOf m fuel (a + 1#16)
      (bytesOf (m.read a) ++ rest.1, rest.2)

/-- The words of one lap of memory (R173). -/
def lapWords : Nat := 65536

/-- A string routine: the loop over at most one lap of memory. A lap with no zero word never ends (R173): the step
holds, and each further step emits the next lap. -/
def routineString (bytesOf : Word → List Byte) (h : Hold) (s : State) : State :=
  let r := stringWalk bytesOf s.mem lapWords (s.reg trapReg)
  (s.emit r.1).setHold (if r.2 then none else some h)

/-- PUTS (R164). -/
def routinePuts (s : State) : State := routineString putsBytes .puts s

/-- IN after its prompt (R165): read, echo, store. -/
def routineInRead (p : Config.Params) (s : State) : State :=
  match s.kbdGet p with
  | (some w, t) => ((t.emit [low8 w]).setReg trapReg w).setHold none
  | (none, t) => t.setHold (some .input)

/-- IN (R165): prompt, read, echo, store. -/
def routineIn (p : Config.Params) (s : State) : State := routineInRead p (s.emit p.inPrompt)

/-- PUTSP (R166). -/
def routinePutsp (s : State) : State := routineString putspBytes .putsp s

/-- HALT (R167). -/
def routineHalt (p : Config.Params) (s : State) : State := (s.emit p.haltNotice).setRun .halted

/-- The dispatch of R160; any other vector changes nothing (R168). -/
def trapRoutine (p : Config.Params) (vect8 : Byte) (s : State) : State :=
  if vect8 = p.tvGetc then routineGetc p s
  else if vect8 = p.tvOut then routineOut s
  else if vect8 = p.tvPuts then routinePuts s
  else if vect8 = p.tvIn then routineIn p s
  else if vect8 = p.tvPutsp then routinePutsp s
  else if vect8 = p.tvHalt then routineHalt p s
  else s

/-- A held routine tried again (spec/40_cycle.md R116): what was done before the hold is not done again. -/
def resumeHold (p : Config.Params) (h : Hold) (s : State) : State :=
  match h with
  | .getc => routineGetc p s
  | .input => routineInRead p s
  | .puts => routinePuts s
  | .putsp => routinePutsp s

/-- TRAP by its vector (R160); decoding gives it the vectors of R168 only. -/
def execTrapWith (p : Config.Params) (vect8 : Byte) (s : State) : Host.Outcome State Fault Refusal :=
  .next (trapRoutine p vect8 s)

/-- TRAP by its vector (R160) at the spec's values of the parameters. -/
def execTrap (vect8 : Byte) (s : State) : Host.Outcome State Fault Refusal := execTrapWith params vect8 s

/-- TRAP GETC (R162). -/
def execTrapGetcWith (p : Config.Params) (s : State) : Host.Outcome State Fault Refusal := .next (routineGetc p s)

/-- TRAP GETC (R162) at the spec's values of the parameters. -/
def execTrapGetc (s : State) : Host.Outcome State Fault Refusal := execTrapGetcWith params s

/-- TRAP OUT (R163). -/
def execTrapOut (s : State) : Host.Outcome State Fault Refusal := .next (routineOut s)

/-- TRAP PUTS (R164). -/
def execTrapPuts (s : State) : Host.Outcome State Fault Refusal := .next (routinePuts s)

/-- TRAP IN (R165). -/
def execTrapInWith (p : Config.Params) (s : State) : Host.Outcome State Fault Refusal := .next (routineIn p s)

/-- TRAP IN (R165) at the spec's values of the parameters. -/
def execTrapIn (s : State) : Host.Outcome State Fault Refusal := execTrapInWith params s

/-- TRAP PUTSP (R166). -/
def execTrapPutsp (s : State) : Host.Outcome State Fault Refusal := .next (routinePutsp s)

/-- TRAP HALT (R167). -/
def execTrapHaltWith (p : Config.Params) (s : State) : Host.Outcome State Fault Refusal := .next (routineHalt p s)

/-- TRAP HALT (R167) at the spec's values of the parameters. -/
def execTrapHalt (s : State) : Host.Outcome State Fault Refusal := execTrapHaltWith params s

end Sys2Proof.Machine
end

