-- ==== Sys2Proof/Machine/Undefined.lean ====
section
/-! DEFINITION. The two undefined opcode numbers (spec/30_encoding.md R86): executing one raises the decode error
(spec/60_exceptions.md R181), whatever its low 12 bits. -/

namespace Sys2Proof.Machine

/-- UNDEF_8: the lower undefined opcode number, 0b1000 with the numbers of R84. -/
def execUndef8 (_low12 : BitVec 12) (s : State) : Host.Outcome State Fault Refusal := .next s.raiseDecodeError

/-- UNDEF_D: the higher undefined opcode number, 0b1101 with the numbers of R84. -/
def execUndefD (_low12 : BitVec 12) (s : State) : Host.Outcome State Fault Refusal := .next s.raiseDecodeError

end Sys2Proof.Machine
end

