-- ==== Sys2Proof/Machine/Launch.lean ====
section
/-! DEFINITION. The launch of a run (spec/70_reset_and_hazards.md R210 to R213) and the placing of one instruction for
the next fetch. The loader itself is outside the block (spec/00_scope.md R3); what it leaves behind is the launch
memory image. -/

namespace Sys2Proof.Machine

/-- Words placed consecutively from an address (R212). -/
def Memory.load (m : Memory) (o : Word) : List Word → Memory
  | [] => m
  | w :: ws => Memory.load (m.write o w) (o + 1#16) ws

/-- The state at launch: the reset state with an image of origin `o` placed in memory (R210, R212), at any parameters.
The entry point does not depend on the origin (R211). For images with `o + n ≤ 65536` (log 25). -/
def State.launchWith (p : Config.Params) (o : Word) (ws : List Word) : State :=
  { State.resetWith p with mem := (State.resetWith p).mem.load o ws }

/-- The state at launch at the spec's values of the parameters. -/
def State.launch (o : Word) (ws : List Word) : State := State.launchWith params o ws

/-- The big-endian words of an image's byte stream (R213); an odd last byte is outside the block and dropped. -/
def imageWords : List Byte → List Word
  | hi :: lo :: rest => (hi ++ lo) :: imageWords rest
  | _ => []

/-- The launch from an image's byte stream (R213): the first word is the origin. Refused where there is no origin word
(spec/60_exceptions.md R197: the engine is never started) and where the image does not fit (R212; log 25). -/
def State.launchBytes (bytes : List Byte) : Option State :=
  match imageWords bytes with
  | [] => none
  | o :: ws => if o.toNat + ws.length ≤ 65536 then some (State.launch o ws) else none

/-- Where the next instruction word can be placed so that the fetch returns it: at the pc, but not at the
keyboard-status address, whose fetch polls (spec/20_memory.md R63); then at `PC_START`. -/
def State.fetchAddress (s : State) : Word := if s.pc = params.kbsr then params.pcStart else s.pc

/-- `s` running, not held, with one instruction word where the next step fetches (log 23). -/
def State.placeWord (s : State) (ir : Word) : State :=
  { s with run := .running, hold := none, pc := s.fetchAddress, mem := s.mem.write s.fetchAddress ir }

end Sys2Proof.Machine
end

