-- ==== Sys2Proof/Machine/Step.lean ====
section
/-! DEFINITION. One step of the engine (spec/40_cycle.md R110, R113, R116), at the spec's values of the parameters:
`stepWith params` of Machine/Execute.lean. -/

namespace Sys2Proof.Machine

/-- `Step` (R110): enabled only while RUNNING (R113). A held routine is tried again before anything is fetched (R116);
otherwise fetch, increment, decode, execute. -/
def step (s : State) : Host.Outcome State Fault Refusal :=
  match s.run with
  | .halted => .fault .halted
  | .aborted => .fault .aborted
  | .running =>
    match s.hold with
    | some h => .next (resumeHold params h s)
    | none => exec (decodeWord params (s.fetch params).1) (s.fetch params).2

/-- `s` with one instruction, given as its bits, placed where the next step fetches it. -/
def State.withFetchWord (s : State) (nbits w : Nat) : State :=
  match tableWords nbits w with
  | [] => s
  | ir :: _ => s.placeWord ir

end Sys2Proof.Machine
end

