-- ==== Sys2Proof/Machine/Execute.lean ====
section
/-! DEFINITION. The machine with the parameter record as a named argument, for claims that quantify over it
(spec/00_scope.md R5, spec/93_implementation_defined.md "parameter"; log 18). `exec` and `step` are these at `params`. -/

namespace Sys2Proof.Machine

/-- `Execute(ir)` on the decoded instruction (spec/40_cycle.md R111), at any parameters. -/
def execWith (p : Config.Params) (i : Instr) (s : State) : Host.Outcome State Fault Refusal :=
  match i with
  | .addReg dr sr1 sr2 => execAddRegWith p dr sr1 sr2 s
  | .addImm dr sr1 imm5 => execAddImmWith p dr sr1 imm5 s
  | .andReg dr sr1 sr2 => execAndRegWith p dr sr1 sr2 s
  | .andImm dr sr1 imm5 => execAndImmWith p dr sr1 imm5 s
  | .notReg dr sr => execNotRegWith p dr sr s
  | .br cond3 off9 => execBr cond3 off9 s
  | .jmp baseR => execJmp baseR s
  | .jsr off11 => execJsr off11 s
  | .jsrr baseR => execJsrr baseR s
  | .ld dr off9 => execLdWith p dr off9 s
  | .ldi dr off9 => execLdiWith p dr off9 s
  | .ldr dr baseR off6 => execLdrWith p dr baseR off6 s
  | .lea dr off9 => execLeaWith p dr off9 s
  | .st sr off9 => execSt sr off9 s
  | .sti sr off9 => execStiWith p sr off9 s
  | .str sr baseR off6 => execStr sr baseR off6 s
  | .trap vect8 => execTrapWith p vect8 s
  | .undef8 low12 => execUndef8 low12 s
  | .undefD low12 => execUndefD low12 s
  | .trapGetc => execTrapGetcWith p s
  | .trapOut => execTrapOut s
  | .trapPuts => execTrapPuts s
  | .trapIn => execTrapInWith p s
  | .trapPutsp => execTrapPutsp s
  | .trapHalt => execTrapHaltWith p s

/-- `Step` (R110, R113, R116), at any parameters. -/
def stepWith (p : Config.Params) (s : State) : Host.Outcome State Fault Refusal :=
  match s.run with
  | .halted => .fault .halted
  | .aborted => .fault .aborted
  | .running =>
    match s.hold with
    | some h => .next (resumeHold p h s)
    | none => execWith p (decodeWord p (s.fetch p).1) (s.fetch p).2

end Sys2Proof.Machine
end

