-- ==== Sys2Proof/Safety.lean ====
section
/-! DEFINITION. The terms claims are stated in: the ends of a run, the machine's invariant, what a step leaves alone. -/

namespace Sys2Proof.Machine

/-- The normal end (spec/40_cycle.md R113, R117): the only final state. -/
def NormalEnd (s : State) : Prop := s.run = .halted

/-- The fault end (R113, R117): never a final state that satisfies a postcondition. -/
def FaultEnd (s : State) : Prop := s.run = .aborted

/-- A state a safe run may be in: it has not aborted. -/
def Safe (s : State) : Prop := s.run ≠ .aborted

/-- COND holds exactly one of the three flags (spec/10_state.md R24). -/
def CondIsFlag (p : Config.Params) (s : State) : Prop := s.cond ∈ p.flags

/-- A memory with no zero word, over which PUTS and PUTSP never end (spec/45_trap.md R173). -/
def NoZeroWord (m : Memory) : Prop := ∀ a : Word, m.read a ≠ 0x0000#16

/-- What every reachable state satisfies: canonical memory, COND one flag, a routine held only while RUNNING, a string
routine held only over a memory with no zero word. -/
structure StateInv (p : Config.Params) (s : State) : Prop where
  mem : s.mem.wf
  cond : CondIsFlag p s
  holdRuns : s.hold ≠ none → s.run = .running
  stringHold : s.hold = some .puts ∨ s.hold = some .putsp → NoZeroWord s.mem

/-- `t` has every general register of `s` but `dr`. -/
def RegsExcept (s t : State) (dr : Reg) : Prop := ∀ j : Reg, j ≠ dr → t.reg j = s.reg j

/-- `t` has every general register of `s`. -/
def SameRegs (s t : State) : Prop := ∀ j : Reg, t.reg j = s.reg j

/-- `t` has every cell of `s`. -/
def SameMem (s t : State) : Prop := ∀ a : Word, t.mem.read a = s.mem.read a

/-- `t` has every cell of `s` but the one at `ea`. -/
def MemExcept (s t : State) (ea : Word) : Prop := ∀ a : Word, a ≠ ea → t.mem.read a = s.mem.read a

/-- `t` has the run state, hold and output of `s`. -/
def SameRunOut (s t : State) : Prop := t.run = s.run ∧ t.hold = s.hold ∧ t.out = s.out

/-- `t` has the input stream of `s` and has made no draw from the environment. -/
def SameInput (s t : State) : Prop :=
  t.inp = s.inp ∧ t.supply = s.supply ∧ t.oracle = s.oracle ∧ t.draws = s.draws

/-- `t` differs from `s` in general registers, pc and COND only: same memory, run state, hold, output and input. -/
def SameOutside (s t : State) : Prop := SameMem s t ∧ SameRunOut s t ∧ SameInput s t

/-- `t` differs from `s` in COND, pc, run state, hold and output at most: same registers, memory and input. -/
def SameData (s t : State) : Prop := SameRegs s t ∧ SameMem s t ∧ SameInput s t

/-- Outside the two keyboard cells, `t` has every cell of `s` (spec/20_memory.md R67). -/
def MemOutsideKeyboard (p : Config.Params) (s t : State) : Prop :=
  ∀ a : Word, a ≠ p.kbsr → a ≠ p.kbdr → t.mem.read a = s.mem.read a

/-- What a load leaves in `t`, begun in `s` and ending with the read `d` (word and state) at `ea` from `p`: DR and COND
from the word; every other register, pc, run state, hold and output of `s`; the memory and input of `d`. Where `ea` is
not the keyboard-status address, the word is the cell and memory and input are those of `p`. -/
def Loaded (s p : State) (dr : Reg) (ea : Word) (d : Word × State) (t : State) : Prop :=
  t.reg dr = d.1 ∧ t.cond = flagOf params d.1 ∧ RegsExcept s t dr ∧ t.pc = s.pc ∧ SameRunOut s t ∧
    SameMem d.2 t ∧ SameInput d.2 t ∧ MemOutsideKeyboard params s t ∧
    (ea ≠ params.kbsr → t.reg dr = p.mem.read ea ∧ SameMem p t ∧ SameInput p t)

/-- What a store leaves in `t`, begun in `s` and writing `v` at `ea` from `p`: that one cell of `p` changed, and no
register, pc, COND, run state, hold, output or further input. -/
def Stored (s p : State) (ea v : Word) (t : State) : Prop :=
  t.mem.read ea = v ∧ MemExcept p t ea ∧ SameInput p t ∧ SameRegs s t ∧ t.pc = s.pc ∧ t.cond = s.cond ∧ SameRunOut s t

/-- The DR of the seven instructions that write COND (spec/10_state.md R26). -/
def flagDest : Instr → Option Reg
  | .addReg dr _ _ | .addImm dr _ _ | .andReg dr _ _ | .andImm dr _ _ | .notReg dr _ => some dr
  | .ld dr _ | .ldi dr _ | .ldr dr _ _ | .lea dr _ => some dr
  | .br _ _ | .jmp _ | .jsr _ | .jsrr _ | .st _ _ | .sti _ _ | .str _ _ _ => none
  | .trap _ | .undef8 _ | .undefD _ => none
  | .trapGetc | .trapOut | .trapPuts | .trapIn | .trapPutsp | .trapHalt => none

/-- BR (spec/42_control.md R130): the one instruction that reads COND. -/
def isBranch : Instr → Bool
  | .br _ _ => true
  | _ => false

/-- The instructions that write pc (spec/10_state.md R23). -/
def isTransfer : Instr → Bool
  | .br _ _ | .jmp _ | .jsr _ | .jsrr _ => true
  | _ => false

/-- TRAP with any vector (spec/45_trap.md R160). -/
def isTrap : Instr → Bool
  | .trap _ | .trapGetc | .trapOut | .trapPuts | .trapIn | .trapPutsp | .trapHalt => true
  | _ => false

/-- An undefined opcode (spec/30_encoding.md R86). -/
def isUndefined : Instr → Bool
  | .undef8 _ | .undefD _ => true
  | _ => false

/-- The instructions that may emit bytes (spec/00_scope.md R14); a TRAP with another vector emits none. -/
def isEmitter : Instr → Bool
  | .trapOut | .trapPuts | .trapIn | .trapPutsp | .trapHalt => true
  | _ => false

/-- The address an instruction stores to, from the state it executes in (spec/44_store.md R150 to R152). -/
def storeAddress (p : Config.Params) (i : Instr) (s : State) : Option Word :=
  match i with
  | .st _ off9 => some (s.pcRel9 off9)
  | .sti _ off9 => some (s.indirect p off9).1
  | .str _ baseR off6 => some (s.baseOffset baseR off6)
  | _ => none

/-- The register a store writes to memory: SR (spec/44_store.md R150 to R152). -/
def storeSource : Instr → Option Reg
  | .st sr _ | .sti sr _ | .str sr _ _ => some sr
  | _ => none

end Sys2Proof.Machine
end

