-- ==== Sys2Proof/Certificates/Slice0/Obligations.lean ====
section
/-! DEFINITION. The statements for the provers, from the numbered rules of spec/. A statement about the machine (`exec`,
`step`) is at the spec's values `params` and uses the parameters' names; one that holds at other values too quantifies over
`p : Config.Params` (spec/00_scope.md R5). Where a number, or a form the model chose, matters, the docstring names the log
entry (notes/assumptions). -/

open Sys2Proof Sys2Proof.Machine

/-! Encoding -/

/-- spec/00_scope.md R7: the low N bits stay, bit N-1 fills the rest, and the value is `f` or `f + 2^16 - 2^N`. -/
def Obligations.SignExtensionCopiesSignBit : Prop :=
  ∀ (n : Nat) (v : Word), 1 ≤ n → n ≤ 16 →
    (∀ k, k < n → (sext n v).getLsbD k = v.getLsbD k) ∧
    (∀ k, n ≤ k → k < 16 → (sext n v).getLsbD k = v.getLsbD (n - 1)) ∧
    (sext n v).toNat =
      (if v.toNat % 2 ^ n < 2 ^ (n - 1) then v.toNat % 2 ^ n else v.toNat % 2 ^ n + 2 ^ 16 - 2 ^ n) ∧
    ∀ f : BitVec n, f = v.extractLsb' 0 n → sextField f = sext n v

/-- spec/30_encoding.md R85, R92, R84: with any legal parameters, so with the spec's, decoding the encoding of a
well-formed instruction gives it back, every operand at every value. -/
def Obligations.DecodeInvertsEncode : Prop :=
  ∀ p : Config.Params, p.Legal → ∀ i : Instr, i.wf p = true → decodeWord p (encode p i) = i

/-- spec/30_encoding.md R92, R86: with any parameters decoding is total, gives a well-formed instruction, and is undefined
exactly for the numbers no opcode has; with the spec's these are 0b1000 and 0b1101 (decision D2, log 12). -/
def Obligations.DecodeIsTotalAndWellFormed : Prop :=
  (∀ (p : Config.Params) (w : Word), (decodeWord p w).wf p = true ∧
    (isUndefined (decodeWord p w) = true ↔ ∀ o : Opcode, p.opcodeNumber o ≠ w.extractLsb' 12 4) ∧
    ∀ rest : List Word, decode p (w :: rest) = .ok (decodeWord p w, rest)) ∧
  ∀ w : Word,
    isUndefined (decodeWord params w) = true ↔ w &&& 0xF000#16 = 0x8000#16 ∨ w &&& 0xF000#16 = 0xD000#16

/-- spec/30_encoding.md R87 (decision D9, log 20): any value in the ignored bits decodes to the same instruction. -/
def Obligations.IgnoredBitsAreIgnored : Prop :=
  ∀ w x : Word,
    (w &&& 0xF020#16 = 0x1000#16 → decodeWord params (w ^^^ (x &&& 0x0018#16)) = decodeWord params w) ∧
    (w &&& 0xF020#16 = 0x5000#16 → decodeWord params (w ^^^ (x &&& 0x0018#16)) = decodeWord params w) ∧
    (w &&& 0xF000#16 = 0x9000#16 → decodeWord params (w ^^^ (x &&& 0x003F#16)) = decodeWord params w) ∧
    (w &&& 0xF000#16 = 0xC000#16 → decodeWord params (w ^^^ (x &&& 0x0E3F#16)) = decodeWord params w) ∧
    (w &&& 0xF800#16 = 0x4000#16 → decodeWord params (w ^^^ (x &&& 0x063F#16)) = decodeWord params w) ∧
    (w &&& 0xF000#16 = 0xF000#16 → decodeWord params (w ^^^ (x &&& 0x0F00#16)) = decodeWord params w)

/-- spec/30_encoding.md R93: the worked encodings, one or more a family (opcode numbers: decision D1, log 12). -/
def Obligations.WorkedEncodingsDecode : Prop :=
  decodeWord params 0x13FD#16 = .addImm 1#3 7#3 0b11101#5 ∧
  decodeWord params 0x53C7#16 = .andReg 1#3 7#3 7#3 ∧
  decodeWord params 0xAE02#16 = .ldi 7#3 2#9 ∧
  decodeWord params 0x4804#16 = .jsr 4#11 ∧
  decodeWord params 0x94FF#16 = .notReg 2#3 3#3 ∧
  decodeWord params 0x05FE#16 = .br 0b010#3 0b111111110#9 ∧
  decodeWord params 0x697F#16 = .ldr 4#3 5#3 0b111111#6 ∧
  decodeWord params 0x7183#16 = .str 0#3 6#3 3#6 ∧
  decodeWord params 0xF025#16 = .trapHalt

/-! Step, reset, ends -/

/-- spec/40_cycle.md R110, R111: a running engine that holds nothing fetches by `MemRead` (decision D14, log 19),
increments pc, and runs what the fetched word decodes to; where pc is not the keyboard-status address the fetched word is
the cell and the fetch changes nothing. -/
def Obligations.StepRunsTheDecodedInstruction : Prop :=
  ∀ (s : State) (i : Instr), s.run = .running → s.hold = none →
    (decodeWord params (s.memRead params s.pc).1 = i →
      step s = exec i { (s.memRead params s.pc).2 with pc := s.pc + 1#16 }) ∧
    (s.pc ≠ params.kbsr → decodeWord params (s.mem.read s.pc) = i → step s = exec i { s with pc := s.pc + 1#16 })

/-- spec/40_cycle.md R113: no step is enabled in HALTED or ABORTED; the model answers a fault of that name (log 3). -/
def Obligations.StoppedMachineTakesNoStep : Prop :=
  ∀ s : State,
    (s.run = .halted → step s = .fault .halted) ∧ (s.run = .aborted → step s = .fault .aborted) ∧
    (s.run ≠ .running → ∀ t, step s ≠ .next t)

/-- spec/60_exceptions.md R180: no instruction stops the engine on any operands in any state, and a running engine always
has a next state (a decode error is one, with run = ABORTED; a blocked read is one, held: log 4, 5, 6). -/
def Obligations.EveryInstructionAnswersANextState : Prop :=
  (∀ (i : Instr) (s : State), ∃ t, exec i s = .next t) ∧
  ∀ s : State, s.run = .running → ∃ t, step s = .next t

/-- spec/10_state.md R32, R33, spec/70_reset_and_hazards.md R210: the reset state (register and COND values: the spec's
decisions D6, D7, log 10; PC: D8, log 11; nothing held: log 9). -/
def Obligations.ResetValues : Prop :=
  State.reset.pc = 0x3000#16 ∧ (∀ i : Reg, State.reset.reg i = 0x0000#16) ∧ State.reset.cond = 0x0002#16 ∧
  (∀ a : Word, State.reset.mem.read a = 0x0000#16) ∧ State.reset.run = .running ∧ State.reset.out = [] ∧
  State.reset.hold = none ∧ State.reset.regIndexed 8 = 0x3000#16 ∧ State.reset.regIndexed 9 = 0x0002#16

/-- The invariant `StateInv` holds at reset: canonical memory (log 1), COND one flag (spec/10_state.md R24), a routine held
only where it may be (log 5, 6). That reset holds no routine at all is a clause of `ResetValues`. -/
def Obligations.ResetMeetsTheInvariant : Prop := StateInv params State.reset

/-- spec/70_reset_and_hazards.md R212, R211 (images that fit: decision D27, log 25): the image stands at its origin, every
other cell is zero, pc is `PC_START` whatever the origin, and the launch state meets the invariant. -/
def Obligations.LaunchPlacesTheImage : Prop :=
  ∀ (o : Word) (ws : List Word), o.toNat + ws.length ≤ 65536 →
    (∀ (k : Nat) (h : k < ws.length), (State.launch o ws).mem.read (o + BitVec.ofNat 16 k) = ws[k]) ∧
    (∀ a : Word, a.toNat < o.toNat ∨ o.toNat + ws.length ≤ a.toNat → (State.launch o ws).mem.read a = 0x0000#16) ∧
    (State.launch o ws).pc = params.pcStart ∧ (State.launch o ws).run = .running ∧ StateInv params (State.launch o ws)

/-- Every step keeps the invariant: memory canonical, COND exactly one flag (spec/10_state.md R24), a routine held only
while RUNNING (spec/40_cycle.md R116), a string routine only over a memory with no zero word (spec/45_trap.md R173). -/
def Obligations.StepKeepsTheInvariant : Prop :=
  ∀ s t : State, StateInv params s → step s = .next t → StateInv params t

/-! Flags and pc -/

/-- spec/10_state.md R25: `SetCC(i)` classifies the value in the register and writes COND alone, whatever words the flags
are. -/
def Obligations.SetCCClassifiesTheWrittenValue : Prop :=
  ∀ (p : Config.Params) (s : State) (i : Reg),
    ((s.reg i).toNat = 0 → (s.setCC p i).cond = p.flZro) ∧
    (0x8000 ≤ (s.reg i).toNat → (s.setCC p i).cond = p.flNeg) ∧
    (0 < (s.reg i).toNat → (s.reg i).toNat < 0x8000 → (s.setCC p i).cond = p.flPos) ∧
    (s.setCC p i).cond = flagOf p (s.reg i) ∧ SameData s (s.setCC p i) ∧ SameRunOut s (s.setCC p i) ∧
    (s.setCC p i).pc = s.pc

/-- spec/10_state.md R26: the seven flag-setting instructions leave COND from the value written to DR, no other writes
it, and none but BR reads it: from two states that differ in COND alone, it ends in states that differ in COND alone,
and COND ends the same after a flag-setting one. -/
def Obligations.CondIsWrittenBySevenAndReadByBranch : Prop :=
  (∀ (i : Instr) (s t : State), exec i s = .next t →
    (∀ dr, flagDest i = some dr → t.cond = ((t.setCC params dr).cond)) ∧ (flagDest i = none → t.cond = s.cond)) ∧
  (∀ (i : Instr) (s t : State) (c : Word), isBranch i = false → exec i s = .next t →
    exec i (s.setCond c) = .next (t.setCond (if flagDest i = none then c else t.cond)))

/-- spec/10_state.md R23: no instruction but BR, JMP, JSR and JSRR writes pc. -/
def Obligations.PcIsWrittenByTransfersOnly : Prop :=
  ∀ (i : Instr) (s t : State), exec i s = .next t → isTransfer i = false → t.pc = s.pc

/-! Operate (spec/41_operate.md) -/

/-- R120: ADD, register form. -/
def Obligations.AddRegisterForm : Prop :=
  (∀ w : Word, w &&& 0xF020#16 = 0x1000#16 →
    decodeWord params w = .addReg (w.extractLsb' 9 3) (w.extractLsb' 6 3) (w.extractLsb' 0 3)) ∧
  ∀ (dr sr1 sr2 : Reg) (s : State), ∃ t, exec (.addReg dr sr1 sr2) s = .next t ∧
    (t.reg dr).toNat = ((s.reg sr1).toNat + (s.reg sr2).toNat) % 65536 ∧ t.cond = flagOf params (t.reg dr) ∧
    RegsExcept s t dr ∧ t.pc = s.pc ∧ SameOutside s t

/-- R121: ADD, immediate form. -/
def Obligations.AddImmediateForm : Prop :=
  (∀ w : Word, w &&& 0xF020#16 = 0x1020#16 →
    decodeWord params w = .addImm (w.extractLsb' 9 3) (w.extractLsb' 6 3) (w.extractLsb' 0 5)) ∧
  ∀ (dr sr1 : Reg) (imm5 : BitVec 5) (s : State), ∃ t, exec (.addImm dr sr1 imm5) s = .next t ∧
    (t.reg dr).toNat = ((s.reg sr1).toNat + (sextField imm5).toNat) % 65536 ∧ t.cond = flagOf params (t.reg dr) ∧
    RegsExcept s t dr ∧ t.pc = s.pc ∧ SameOutside s t

/-- R122: AND, register form. -/
def Obligations.AndRegisterForm : Prop :=
  (∀ w : Word, w &&& 0xF020#16 = 0x5000#16 →
    decodeWord params w = .andReg (w.extractLsb' 9 3) (w.extractLsb' 6 3) (w.extractLsb' 0 3)) ∧
  ∀ (dr sr1 sr2 : Reg) (s : State), ∃ t, exec (.andReg dr sr1 sr2) s = .next t ∧
    (∀ k, k < 16 → (t.reg dr).getLsbD k = ((s.reg sr1).getLsbD k && (s.reg sr2).getLsbD k)) ∧
    t.cond = flagOf params (t.reg dr) ∧ RegsExcept s t dr ∧ t.pc = s.pc ∧ SameOutside s t

/-- R123: AND, immediate form. -/
def Obligations.AndImmediateForm : Prop :=
  (∀ w : Word, w &&& 0xF020#16 = 0x5020#16 →
    decodeWord params w = .andImm (w.extractLsb' 9 3) (w.extractLsb' 6 3) (w.extractLsb' 0 5)) ∧
  ∀ (dr sr1 : Reg) (imm5 : BitVec 5) (s : State), ∃ t, exec (.andImm dr sr1 imm5) s = .next t ∧
    (∀ k, k < 16 → (t.reg dr).getLsbD k = ((s.reg sr1).getLsbD k && (sextField imm5).getLsbD k)) ∧
    t.cond = flagOf params (t.reg dr) ∧ RegsExcept s t dr ∧ t.pc = s.pc ∧ SameOutside s t

/-- R124: NOT; COND from the written value. -/
def Obligations.NotForm : Prop :=
  (∀ w : Word, w &&& 0xF000#16 = 0x9000#16 → decodeWord params w = .notReg (w.extractLsb' 9 3) (w.extractLsb' 6 3)) ∧
  ∀ (dr sr : Reg) (s : State), ∃ t, exec (.notReg dr sr) s = .next t ∧
    (t.reg dr).toNat = 0xFFFF - (s.reg sr).toNat ∧
    (∀ k, k < 16 → (t.reg dr).getLsbD k = !(s.reg sr).getLsbD k) ∧ t.cond = flagOf params (t.reg dr) ∧
    RegsExcept s t dr ∧ t.pc = s.pc ∧ SameOutside s t

/-- R126: subtraction composed of NOT, ADD #1 and ADD is `(a - b) mod 2^16` for all words. -/
def Obligations.SubtractionIsComposed : Prop :=
  ∀ (dr ra rb : Reg) (s : State), ra ≠ rb → ∃ s1 s2 t,
    exec (.notReg rb rb) s = .next s1 ∧ exec (.addImm rb rb 1#5) s1 = .next s2 ∧
    exec (.addReg dr ra rb) s2 = .next t ∧
    (t.reg dr).toNat = ((s.reg ra).toNat + 65536 - (s.reg rb).toNat) % 65536

/-! Control (spec/42_control.md) -/

/-- R130: BR. The test of cond3 against COND, and by flag (the bits: decision D5, log 14); nothing but pc may change. -/
def Obligations.BranchForm : Prop :=
  (∀ w : Word, w &&& 0xF000#16 = 0x0000#16 → decodeWord params w = .br (w.extractLsb' 9 3) (w.extractLsb' 0 9)) ∧
  (∀ (cond3 : BitVec 3) (off9 : BitVec 9) (s : State),
    exec (.br cond3 off9) s =
      .next { s with pc := if cond3 &&& s.cond.extractLsb' 0 3 ≠ 0#3 then s.pc + sextField off9 else s.pc }) ∧
  ∀ (cond3 : BitVec 3) (s : State), CondIsFlag params s →
    (cond3 &&& s.cond.extractLsb' 0 3 ≠ 0#3 ↔
      (cond3.getLsbD 2 = true ∧ s.cond = params.flNeg) ∨ (cond3.getLsbD 1 = true ∧ s.cond = params.flZro) ∨
        (cond3.getLsbD 0 = true ∧ s.cond = params.flPos))

/-- R131: JMP; nothing but pc changes. -/
def Obligations.JumpForm : Prop :=
  (∀ w : Word, w &&& 0xF000#16 = 0xC000#16 → decodeWord params w = .jmp (w.extractLsb' 6 3)) ∧
  ∀ (baseR : Reg) (s : State), exec (.jmp baseR) s = .next { s with pc := s.reg baseR }

/-- R132: JSR. -/
def Obligations.JsrForm : Prop :=
  (∀ w : Word, w &&& 0xF800#16 = 0x4800#16 → decodeWord params w = .jsr (w.extractLsb' 0 11)) ∧
  ∀ (off11 : BitVec 11) (s : State), ∃ t, exec (.jsr off11) s = .next t ∧
    t.reg 7#3 = s.pc ∧ t.pc = s.pc + sextField off11 ∧ RegsExcept s t 7#3 ∧ t.cond = s.cond ∧ SameOutside s t

/-- R133: JSRR. With BaseR = R7 pc ends at the value just written to R7 (the literal order: decision D18, log 21). -/
def Obligations.JsrrForm : Prop :=
  (∀ w : Word, w &&& 0xF800#16 = 0x4000#16 → decodeWord params w = .jsrr (w.extractLsb' 6 3)) ∧
  ∀ (baseR : Reg) (s : State), ∃ t, exec (.jsrr baseR) s = .next t ∧
    t.reg 7#3 = s.pc ∧ t.pc = (if baseR = 7#3 then s.pc else s.reg baseR) ∧ RegsExcept s t 7#3 ∧
    t.cond = s.cond ∧ SameOutside s t

/-! Loads (spec/43_load.md) -/

/-- R140: LD. -/
def Obligations.LdForm : Prop :=
  (∀ w : Word, w &&& 0xF000#16 = 0x2000#16 → decodeWord params w = .ld (w.extractLsb' 9 3) (w.extractLsb' 0 9)) ∧
  ∀ (dr : Reg) (off9 : BitVec 9) (s : State), ∃ t, exec (.ld dr off9) s = .next t ∧
    Loaded s s dr (s.pc + sextField off9) (s.memRead params (s.pc + sextField off9)) t

/-- R141: LDI; the pointer read, then the data read from the state it leaves. -/
def Obligations.LdiForm : Prop :=
  (∀ w : Word, w &&& 0xF000#16 = 0xA000#16 → decodeWord params w = .ldi (w.extractLsb' 9 3) (w.extractLsb' 0 9)) ∧
  ∀ (dr : Reg) (off9 : BitVec 9) (s : State) (p : Word × State), p = s.memRead params (s.pc + sextField off9) →
    ∃ t, exec (.ldi dr off9) s = .next t ∧ Loaded s p.2 dr p.1 (p.2.memRead params p.1) t ∧
      (s.pc + sextField off9 ≠ params.kbsr → p = (s.mem.read (s.pc + sextField off9), s))

/-- R142: LDR; the address from BaseR as it was before DR is written. -/
def Obligations.LdrForm : Prop :=
  (∀ w : Word, w &&& 0xF000#16 = 0x6000#16 →
    decodeWord params w = .ldr (w.extractLsb' 9 3) (w.extractLsb' 6 3) (w.extractLsb' 0 6)) ∧
  ∀ (dr baseR : Reg) (off6 : BitVec 6) (s : State), ∃ t, exec (.ldr dr baseR off6) s = .next t ∧
    Loaded s s dr (s.reg baseR + sextField off6) (s.memRead params (s.reg baseR + sextField off6)) t

/-- R143: LEA; no access, COND from the address. -/
def Obligations.LeaForm : Prop :=
  (∀ w : Word, w &&& 0xF000#16 = 0xE000#16 → decodeWord params w = .lea (w.extractLsb' 9 3) (w.extractLsb' 0 9)) ∧
  ∀ (dr : Reg) (off9 : BitVec 9) (s : State), ∃ t, exec (.lea dr off9) s = .next t ∧
    t.reg dr = s.pc + sextField off9 ∧ t.cond = flagOf params (s.pc + sextField off9) ∧ RegsExcept s t dr ∧ t.pc = s.pc ∧
    SameOutside s t

/-! Stores (spec/44_store.md) -/

/-- R150: ST. -/
def Obligations.StForm : Prop :=
  (∀ w : Word, w &&& 0xF000#16 = 0x3000#16 → decodeWord params w = .st (w.extractLsb' 9 3) (w.extractLsb' 0 9)) ∧
  ∀ (sr : Reg) (off9 : BitVec 9) (s : State), ∃ t, exec (.st sr off9) s = .next t ∧
    Stored s s (s.pc + sextField off9) (s.reg sr) t

/-- R151: STI; the pointer read comes first and may poll. -/
def Obligations.StiForm : Prop :=
  (∀ w : Word, w &&& 0xF000#16 = 0xB000#16 → decodeWord params w = .sti (w.extractLsb' 9 3) (w.extractLsb' 0 9)) ∧
  ∀ (sr : Reg) (off9 : BitVec 9) (s : State) (p : Word × State), p = s.memRead params (s.pc + sextField off9) →
    ∃ t, exec (.sti sr off9) s = .next t ∧ Stored s p.2 p.1 (s.reg sr) t ∧
      (s.pc + sextField off9 ≠ params.kbsr → p = (s.mem.read (s.pc + sextField off9), s))

/-- R152: STR. -/
def Obligations.StrForm : Prop :=
  (∀ w : Word, w &&& 0xF000#16 = 0x7000#16 →
    decodeWord params w = .str (w.extractLsb' 9 3) (w.extractLsb' 6 3) (w.extractLsb' 0 6)) ∧
  ∀ (sr baseR : Reg) (off6 : BitVec 6) (s : State), ∃ t, exec (.str sr baseR off6) s = .next t ∧
    Stored s s (s.reg baseR + sextField off6) (s.reg sr) t

/-- spec/20_memory.md R63, spec/44_store.md R153: a store by ST, STI or STR onto the next instruction is what the very next
fetch sees (at the keyboard-status address the fetch's own poll replaces it, so that address is not claimed). -/
def Obligations.StoreIsSeenByTheNextFetch : Prop :=
  ∀ (s : State) (i : Instr) (sr : Reg), s.run = .running → s.hold = none → s.pc + 1#16 ≠ params.kbsr →
    decodeWord params (s.fetch params).1 = i → storeSource i = some sr →
    storeAddress params i (s.fetch params).2 = some (s.pc + 1#16) →
    ∃ t, step s = .next t ∧ t.pc = s.pc + 1#16 ∧ (t.fetch params).1 = s.reg sr ∧
      step t = exec (decodeWord params (s.reg sr)) { t with pc := s.pc + 2#16 }

/-! The keyboard (spec/20_memory.md, spec/45_trap.md) -/

/-- R51, R52, R65, with any legal parameters: `MemRead` polls at the keyboard-status address alone (decisions D10, D14, D33,
log 19); the status is 0x8000 or 0x0000, the data cell changes on Ready only, no other cell changes; `MemWrite` is plain
everywhere. -/
def Obligations.OnlyTheStatusReadPolls : Prop :=
  ∀ (p : Config.Params) (s : State) (a : Word), p.Legal →
    (a ≠ p.kbsr → s.memRead p a = (s.mem.read a, s)) ∧
    (∀ w, (s.kbdPoll p).1 = .ready w →
      (s.memRead p p.kbsr).1 = 0x8000#16 ∧ (s.memRead p p.kbsr).2.mem.read p.kbsr = 0x8000#16 ∧
        (s.memRead p p.kbsr).2.mem.read p.kbdr = w) ∧
    ((s.kbdPoll p).1 = .notReady →
      (s.memRead p p.kbsr).1 = 0x0000#16 ∧ (s.memRead p p.kbsr).2.mem.read p.kbsr = 0x0000#16 ∧
        (s.memRead p p.kbsr).2.mem.read p.kbdr = s.mem.read p.kbdr) ∧
    MemOutsideKeyboard p s (s.memRead p p.kbsr).2 ∧ SameInput (s.kbdPoll p).2 (s.memRead p p.kbsr).2 ∧
    SameRegs s (s.memRead p p.kbsr).2 ∧ (s.memRead p p.kbsr).2.pc = s.pc ∧
    (s.memRead p p.kbsr).2.cond = s.cond ∧ SameRunOut s (s.memRead p p.kbsr).2 ∧
    ∀ v, (s.memWrite a v).mem.read a = v ∧ MemExcept s (s.memWrite a v) a ∧ SameInput s (s.memWrite a v)

/-- R54 (decisions D11, D12, log 7, 8): the answer of a poll. Whether Ready is answered where the rule leaves it open is
the draw `pollDraw`, of which nothing is assumed. Where the state does not fix the stream, as at reset, the environment shows
what stands there (free value, log 7) and the draw decides as before: a byte shown and not taken stays. The last three clauses
hold of every state: Ready comes from the front of the stream or from its end, NotReady consumes nothing, and a poll changes
nothing but the stream and the draws. -/
def Obligations.PollTakesFromTheFrontOrAnswersNotReady : Prop :=
  ∀ (p : Config.Params) (s : State),
    (∀ b rest, s.inp = b :: rest → s.pollDraw = true →
      s.kbdPoll p = (.ready (zext16 b), { s with inp := rest, oracle := s.oracle.tail, draws := s.draws + 1 })) ∧
    (∀ b rest, s.inp = b :: rest → s.pollDraw = false →
      s.kbdPoll p = (.notReady, { s with oracle := s.oracle.tail, draws := s.draws + 1 })) ∧
    (s.inp = [] → s.supply = .ended →
      s.kbdPoll p = (if s.pollDraw then .ready p.eosValue else .notReady,
        { s with oracle := s.oracle.tail, draws := s.draws + 1 })) ∧
    (s.inp = [] → s.supply = .withheld →
      s.kbdPoll p = (.notReady, { s with oracle := s.oracle.tail, draws := s.draws + 1 })) ∧
    (s.inp = [] → s.supply = .unfixed → s.kbdPoll p =
      match Config.envAnswer s.draws with
      | .byte b =>
        if s.pollDraw then (.ready (zext16 b), { s with oracle := s.oracle.tail, draws := s.draws + 1 })
        else (.notReady, { s with inp := [b], oracle := s.oracle.tail, draws := s.draws + 1 })
      | .atEnd => (if s.pollDraw then .ready p.eosValue else .notReady,
          { s with supply := .ended, oracle := s.oracle.tail, draws := s.draws + 1 })
      | .nothing => (.notReady, { s with oracle := s.oracle.tail, draws := s.draws + 1 })) ∧
    (∀ w, (s.kbdPoll p).1 = .ready w →
      (∃ b, s.settle.inp = b :: (s.kbdPoll p).2.inp ∧ w = zext16 b) ∨
        (w = p.eosValue ∧ s.settle.inp = [] ∧ s.settle.supply = .ended ∧ (s.kbdPoll p).2.inp = [])) ∧
    ((s.kbdPoll p).1 = .notReady → (s.kbdPoll p).2.inp = s.settle.inp) ∧
    (s.kbdPoll p).2 = { s with inp := (s.kbdPoll p).2.inp, supply := s.settle.supply, oracle := s.oracle.tail,
                               draws := s.draws + 1 }

/-- R169 (decision D13, log 16): a blocking read takes the front byte zero-extended, or gives `EOS_VALUE` at end of
stream and takes nothing, or (the environment withholding) gives nothing. Where the state does not fix the stream, as at
reset, the environment answers (free value, log 7). The last three clauses hold of every state. -/
def Obligations.BlockingReadTakesTheFront : Prop :=
  ∀ (p : Config.Params) (s : State),
    (∀ b rest, s.inp = b :: rest → s.kbdGet p = (some (zext16 b), { s with inp := rest, draws := s.draws + 1 })) ∧
    (s.inp = [] → s.supply = .ended → s.kbdGet p = (some p.eosValue, { s with draws := s.draws + 1 })) ∧
    (s.inp = [] → s.supply = .withheld → s.kbdGet p = (none, { s with draws := s.draws + 1 })) ∧
    (s.inp = [] → s.supply = .unfixed → s.kbdGet p =
      match Config.envAnswer s.draws with
      | .byte b => (some (zext16 b), { s with draws := s.draws + 1 })
      | .atEnd => (some p.eosValue, { s with supply := .ended, draws := s.draws + 1 })
      | .nothing => (none, { s with draws := s.draws + 1 })) ∧
    ((s.kbdGet p).1 = none → s.settle.inp = [] ∧ s.settle.supply ≠ .ended) ∧
    (∀ w, (s.kbdGet p).1 = some w →
      (∃ b, s.settle.inp = b :: (s.kbdGet p).2.inp ∧ w = zext16 b) ∨
        (w = p.eosValue ∧ s.settle.inp = [] ∧ s.settle.supply = .ended ∧ (s.kbdGet p).2.inp = [])) ∧
    (s.kbdGet p).2 = { s with inp := (s.kbdGet p).2.inp, supply := s.settle.supply, draws := s.draws + 1 }

/-- spec/20_memory.md R63: a fetch at the keyboard-status address executes the polled status: a no-operation when not
ready, a decode error when ready. The input is what the poll leaves. -/
def Obligations.FetchAtTheStatusAddress : Prop :=
  ∀ s : State, s.run = .running → s.hold = none → s.pc = params.kbsr →
    ((s.kbdPoll params).1 = .notReady →
      ∃ t, step s = .next t ∧ t.run = .running ∧ t.pc = s.pc + 1#16 ∧ SameRegs s t ∧
      t.cond = s.cond ∧ t.out = s.out ∧ t.hold = none ∧ SameInput (s.kbdPoll params).2 t ∧
      t.mem.read params.kbsr = 0x0000#16 ∧ MemExcept s t params.kbsr) ∧
    (∀ w, (s.kbdPoll params).1 = .ready w →
      ∃ t, step s = .next t ∧ t.run = .aborted ∧ t.pc = s.pc + 1#16 ∧ SameRegs s t ∧
      t.cond = s.cond ∧ t.out = s.out ∧ t.hold = none ∧ SameInput (s.kbdPoll params).2 t ∧
      t.mem.read params.kbsr = 0x8000#16 ∧ t.mem.read params.kbdr = w ∧
      MemOutsideKeyboard params s t)

/-! TRAP (spec/45_trap.md) -/

/-- R162 (decision D30): GETC with a byte to read, at end of stream, and (R116, log 5) with nothing to read: the step
holds. R0 is the only register written, COND is not. The last clause is of every state, one whose stream is not fixed (as at
reset) among them: GETC does what its blocking read answers (`BlockingReadTakesTheFront`). -/
def Obligations.GetcForm : Prop :=
  (∀ w : Word, w &&& 0xF0FF#16 = 0xF020#16 → decodeWord params w = .trapGetc) ∧
  (∀ (s : State) (b : Byte) (rest : List Byte), s.inp = b :: rest → ∃ t, exec .trapGetc s = .next t ∧
    t.reg 0#3 = zext16 b ∧ RegsExcept s t 0#3 ∧ t.hold = none ∧
    t.inp = rest ∧ t.supply = s.supply ∧ t.pc = s.pc ∧ t.cond = s.cond ∧ t.run = s.run ∧ t.out = s.out ∧ t.mem = s.mem) ∧
  (∀ s : State, s.inp = [] → s.supply = .ended → ∃ t, exec .trapGetc s = .next t ∧
    t.reg 0#3 = params.eosValue ∧ RegsExcept s t 0#3 ∧ t.hold = none ∧
    t.inp = [] ∧ t.supply = .ended ∧ t.pc = s.pc ∧ t.cond = s.cond ∧ t.run = s.run ∧ t.out = s.out ∧ t.mem = s.mem) ∧
  (∀ s : State, s.inp = [] → s.supply = .withheld →
    exec .trapGetc s = .next { s with hold := some .getc, draws := s.draws + 1 }) ∧
  (∀ s : State, ∃ t, exec .trapGetc s = .next t ∧ RegsExcept s t 0#3 ∧ t.pc = s.pc ∧ t.cond = s.cond ∧
    t.run = s.run ∧ t.out = s.out ∧ t.mem = s.mem ∧ SameInput (s.kbdGet params).2 t ∧
    (∀ w, (s.kbdGet params).1 = some w → t.reg 0#3 = w ∧ t.hold = none) ∧
    ((s.kbdGet params).1 = none → t.reg 0#3 = s.reg 0#3 ∧ t.hold = some .getc))

/-- R163 (decision D31): OUT appends R0's low byte, and changes nothing else. -/
def Obligations.OutForm : Prop :=
  (∀ w : Word, w &&& 0xF0FF#16 = 0xF021#16 → decodeWord params w = .trapOut) ∧
  ∀ s : State, exec .trapOut s = .next { s with out := s.out ++ [(s.reg 0#3).extractLsb' 0 8] }

/-- R164 (decisions D15, D16, log 19): PUTS of a string of non-zero words ended by a zero word, from R0 with wrap: their
low bytes are appended, nothing is polled, and nothing else changes. -/
def Obligations.PutsForm : Prop :=
  (∀ w : Word, w &&& 0xF0FF#16 = 0xF022#16 → decodeWord params w = .trapPuts) ∧
  ∀ (s : State) (ws : List Word), ws.length < 65536 →
    (∀ (k : Nat) (h : k < ws.length), s.mem.read (s.reg 0#3 + BitVec.ofNat 16 k) = ws[k] ∧ ws[k] ≠ 0x0000#16) →
    s.mem.read (s.reg 0#3 + BitVec.ofNat 16 ws.length) = 0x0000#16 →
    exec .trapPuts s = .next { s with out := s.out ++ ws.map (fun w => w.extractLsb' 0 8), hold := none }

/-- R166: PUTSP of such a string: each word's low byte, then its high byte unless that is zero. -/
def Obligations.PutspForm : Prop :=
  (∀ w : Word, w &&& 0xF0FF#16 = 0xF024#16 → decodeWord params w = .trapPutsp) ∧
  ∀ (s : State) (ws : List Word), ws.length < 65536 →
    (∀ (k : Nat) (h : k < ws.length), s.mem.read (s.reg 0#3 + BitVec.ofNat 16 k) = ws[k] ∧ ws[k] ≠ 0x0000#16) →
    s.mem.read (s.reg 0#3 + BitVec.ofNat 16 ws.length) = 0x0000#16 →
    exec .trapPutsp s = .next { s with
      out := s.out ++ ws.flatMap (fun w =>
        w.extractLsb' 0 8 :: (if w.extractLsb' 8 8 = 0x00#8 then [] else [w.extractLsb' 8 8])),
      hold := none }

/-- R173: PUTS and PUTSP complete exactly where some cell is zero. Over a memory with none the routine never ends: it
emits all of memory from R0, holds, and every further step emits that lap again (the lap a step: log 6). -/
def Obligations.StringRoutinesEndOnlyAtAZeroWord : Prop :=
  ∀ (s : State) (lap lapp : List Byte),
    lap = (List.range 65536).map (fun k => low8 (s.mem.read (s.reg 0#3 + BitVec.ofNat 16 k))) →
    lapp = (List.range 65536).flatMap (fun k => putspBytes (s.mem.read (s.reg 0#3 + BitVec.ofNat 16 k))) →
    (¬ NoZeroWord s.mem → ∃ t u, exec .trapPuts s = .next t ∧ t.hold = none ∧
      exec .trapPutsp s = .next u ∧ u.hold = none) ∧
    (NoZeroWord s.mem →
      exec .trapPuts s = .next { s with out := s.out ++ lap, hold := some .puts } ∧
      exec .trapPutsp s = .next { s with out := s.out ++ lapp, hold := some .putsp } ∧
      (s.run = .running → s.hold = some .puts → step s = .next { s with out := s.out ++ lap }) ∧
      (s.run = .running → s.hold = some .putsp → step s = .next { s with out := s.out ++ lapp }))

/-- R165 (decision D19, log 17): IN writes the prompt, reads, echoes the low byte, stores in R0; with nothing to read it
holds with the prompt written (R116, log 5). The last clause is of every state: IN does what its blocking read answers
(`BlockingReadTakesTheFront`). -/
def Obligations.InForm : Prop :=
  (∀ w : Word, w &&& 0xF0FF#16 = 0xF023#16 → decodeWord params w = .trapIn) ∧
  (∀ (s : State) (b : Byte) (rest : List Byte), s.inp = b :: rest → ∃ t, exec .trapIn s = .next t ∧
    t.out = s.out ++ params.inPrompt ++ [b] ∧ t.reg 0#3 = zext16 b ∧ RegsExcept s t 0#3 ∧ t.hold = none ∧
    t.inp = rest ∧ t.supply = s.supply ∧ t.pc = s.pc ∧ t.cond = s.cond ∧ t.run = s.run ∧ t.mem = s.mem) ∧
  (∀ s : State, s.inp = [] → s.supply = .ended → ∃ t, exec .trapIn s = .next t ∧
    t.out = s.out ++ params.inPrompt ++ [low8 params.eosValue] ∧ t.reg 0#3 = params.eosValue ∧ RegsExcept s t 0#3 ∧
    t.hold = none ∧ t.inp = [] ∧ t.supply = .ended ∧ t.pc = s.pc ∧ t.cond = s.cond ∧ t.run = s.run ∧ t.mem = s.mem) ∧
  (∀ s : State, s.inp = [] → s.supply = .withheld →
    exec .trapIn s =
      .next { s with out := s.out ++ params.inPrompt, hold := some .input, draws := s.draws + 1 }) ∧
  (∀ s : State, ∃ t, exec .trapIn s = .next t ∧ RegsExcept s t 0#3 ∧ t.pc = s.pc ∧ t.cond = s.cond ∧
    t.run = s.run ∧ t.mem = s.mem ∧ SameInput (s.kbdGet params).2 t ∧
    (∀ w, (s.kbdGet params).1 = some w →
      t.reg 0#3 = w ∧ t.hold = none ∧ t.out = s.out ++ params.inPrompt ++ [low8 w]) ∧
    ((s.kbdGet params).1 = none →
      t.reg 0#3 = s.reg 0#3 ∧ t.hold = some .input ∧ t.out = s.out ++ params.inPrompt))

/-- R167 (decision D20, log 17): HALT emits the notice and stops the run; nothing else changes. -/
def Obligations.HaltForm : Prop :=
  (∀ w : Word, w &&& 0xF0FF#16 = 0xF025#16 → decodeWord params w = .trapHalt) ∧
  ∀ s : State, exec .trapHalt s = .next { s with out := s.out ++ params.haltNotice, run := .halted }

/-- R168: TRAP with any other vector changes nothing, so the step ends with pc at the next instruction. -/
def Obligations.UnknownVectorIsNoOperation : Prop :=
  (∀ w : Word, w &&& 0xF000#16 = 0xF000#16 → w.extractLsb' 0 8 ∉ params.trapVectors →
    decodeWord params w = .trap (w.extractLsb' 0 8)) ∧
  (∀ (v : Byte) (s : State), v ∉ params.trapVectors → exec (.trap v) s = .next s) ∧
  ∀ (v : Byte) (s : State), s.run = .running → s.hold = none → s.pc ≠ params.kbsr →
    decodeWord params (s.mem.read s.pc) = .trap v → step s = .next { s with pc := s.pc + 1#16 }

/-- R160: a TRAP word runs what its vector selects (second clause). The first clause says the same of the term `.trap v`:
where v is one of the six vectors decoding never gives that term, and its meaning is the model's choice (log 22). -/
def Obligations.TrapDispatchesByVector : Prop :=
  ∀ (v : Byte) (s : State), exec (.trap v) s = exec (decodeTrap params v) s ∧
    ∀ w : Word, w &&& 0xF000#16 = 0xF000#16 → w.extractLsb' 0 8 = v → decodeWord params w = decodeTrap params v

/-- R171 (decision D17): TRAP changes no pc, COND or memory and no register but R0, and R0 by GETC and IN alone. -/
def Obligations.TrapFrame : Prop :=
  ∀ (i : Instr) (s t : State), i.wf params = true → isTrap i = true → exec i s = .next t →
    t.pc = s.pc ∧ t.cond = s.cond ∧ t.mem = s.mem ∧ RegsExcept s t 0#3 ∧
    (i ≠ .trapGetc → i ≠ .trapIn → t.reg 0#3 = s.reg 0#3 ∧ SameInput s t)

/-- spec/40_cycle.md R116 (decision D29, log 5): while a GETC or IN step holds, a step waits (nothing but the count of
keyboard events changes) or, once there is a byte or the stream's end, completes it with pc where it was; the prompt is
not written again. The last clause is of every held read, a stream that is not fixed among them. -/
def Obligations.HeldReadWaitsThenCompletes : Prop :=
  ∀ s : State, s.run = .running → (s.hold = some .getc ∨ s.hold = some .input) →
    (s.inp = [] → s.supply = .withheld → step s = .next { s with draws := s.draws + 1 }) ∧
    (∀ b rest, s.inp = b :: rest → ∃ t, step s = .next t ∧ t.reg 0#3 = zext16 b ∧ RegsExcept s t 0#3 ∧
      t.inp = rest ∧ t.hold = none ∧ t.run = .running ∧ t.pc = s.pc ∧ t.cond = s.cond ∧ t.mem = s.mem ∧
      t.out = if s.hold = some .input then s.out ++ [b] else s.out) ∧
    (s.inp = [] → s.supply = .ended → ∃ t, step s = .next t ∧ t.reg 0#3 = params.eosValue ∧ RegsExcept s t 0#3 ∧
      t.inp = [] ∧ t.hold = none ∧ t.run = .running ∧ t.pc = s.pc ∧ t.cond = s.cond ∧ t.mem = s.mem ∧
      t.out = if s.hold = some .input then s.out ++ [low8 params.eosValue] else s.out) ∧
    ∃ t, step s = .next t ∧ RegsExcept s t 0#3 ∧ t.run = .running ∧ t.pc = s.pc ∧ t.cond = s.cond ∧ t.mem = s.mem ∧
      SameInput (s.kbdGet params).2 t ∧
      (∀ w, (s.kbdGet params).1 = some w → t.reg 0#3 = w ∧ t.hold = none ∧
        t.out = if s.hold = some .input then s.out ++ [low8 w] else s.out) ∧
      ((s.kbdGet params).1 = none → t.reg 0#3 = s.reg 0#3 ∧ t.hold = s.hold ∧ t.out = s.out)

/-! The decode error and whole-machine rules -/

/-- spec/60_exceptions.md R181 (decision D24, log 4): an undefined opcode aborts the run and changes nothing else; pc
keeps the increment of its step. -/
def Obligations.UndefinedOpcodeAborts : Prop :=
  (∀ w : Word, (w &&& 0xF000#16 = 0x8000#16 → decodeWord params w = .undef8 (w.extractLsb' 0 12)) ∧
    (w &&& 0xF000#16 = 0xD000#16 → decodeWord params w = .undefD (w.extractLsb' 0 12))) ∧
  (∀ (low12 : BitVec 12) (s : State), exec (.undef8 low12) s = .next { s with run := .aborted } ∧
    exec (.undefD low12) s = .next { s with run := .aborted }) ∧
  ∀ s : State, s.run = .running → s.hold = none → s.pc ≠ params.kbsr →
    isUndefined (decodeWord params (s.mem.read s.pc)) = true →
    step s = .next { s with pc := s.pc + 1#16, run := .aborted }

/-- spec/10_state.md R29 (ABORTED: decision D24, log 4): a step starts in RUNNING; HALTED is reached by HALT alone,
ABORTED by an undefined opcode alone. -/
def Obligations.RunChangesByHaltAndDecodeErrorOnly : Prop :=
  ∀ s t : State, step s = .next t → s.run = .running ∧
    (t.run = .halted ↔ s.hold = none ∧ decodeWord params (s.fetch params).1 = .trapHalt) ∧
    (t.run = .aborted ↔ s.hold = none ∧ isUndefined (decodeWord params (s.fetch params).1) = true)

/-- spec/10_state.md R30, spec/00_scope.md R14: the output only grows, and only in a step of OUT, PUTS, IN, PUTSP, HALT
or in one that goes on with a held IN (its echo, log 5), PUTS or PUTSP (another lap, log 6); a held GETC emits nothing. -/
def Obligations.OutputOnlyGrows : Prop :=
  ∀ s t : State, step s = .next t → ∃ bs : List Byte, t.out = s.out ++ bs ∧
    (bs ≠ [] → s.hold = some .input ∨ s.hold = some .puts ∨ s.hold = some .putsp ∨
      s.hold = none ∧ isEmitter (decodeWord params (s.fetch params).1) = true)

/-- spec/00_scope.md R13, spec/10_state.md R30: at most one keyboard event happens in a step, and it takes at most the
front byte. `settle` is the state once the environment has shown what stands at the front of a stream that is not fixed
(log 7), and the state itself where the stream is fixed. -/
def Obligations.InputIsConsumedFromTheFront : Prop :=
  ∀ s t : State, step s = .next t →
    (SameInput s t ∨
      t.inp <:+ s.settle.inp ∧ s.settle.inp.length ≤ t.inp.length + 1 ∧ t.supply = s.settle.supply ∧
        t.draws = s.draws + 1) ∧
    t.inp <:+ s.settle.inp ∧ (s.supply ≠ .unfixed → t.supply = s.supply ∧ t.inp <:+ s.inp)

/-- spec/20_memory.md R67: a cell other than the two keyboard cells changes only by a store to it. -/
def Obligations.MemoryChangesByStoresOnly : Prop :=
  ∀ (s t : State) (a : Word), step s = .next t → a ≠ params.kbsr → a ≠ params.kbdr →
    t.mem.read a ≠ s.mem.read a →
    s.hold = none ∧ storeAddress params (decodeWord params (s.fetch params).1) (s.fetch params).2 = some a

/-- spec/30_encoding.md R88: zero-filled memory executes as no-operations. -/
def Obligations.ZeroWordIsNoOperation : Prop :=
  ∀ s : State, s.run = .running → s.hold = none → s.pc ≠ params.kbsr → s.mem.read s.pc = 0x0000#16 →
    step s = .next { s with pc := s.pc + 1#16 }

/-! The parameters (spec/00_scope.md R5) -/

/-- R5's table of values (the spec's decisions D1, D3 to D8, D13, D19, D20, log 10 to 17), which meet its constraints; and
the machine is the one with the parameters as a named argument, at those values (log 18). -/
def Obligations.MachineIsAtTheSpecsParameters : Prop :=
  params.Legal ∧ params.pcStart = 0x3000#16 ∧
  Opcode.all.map params.opcodeNumber =
    [0b0001#4, 0b0101#4, 0b1001#4, 0b0000#4, 0b1100#4, 0b0100#4, 0b0010#4, 0b1010#4, 0b0110#4, 0b1110#4, 0b0011#4,
      0b1011#4, 0b0111#4, 0b1111#4] ∧
  params.kbsr = 0xFE00#16 ∧ params.kbdr = 0xFE02#16 ∧ params.flags = [0x0001#16, 0x0002#16, 0x0004#16] ∧
  params.trapVectors = [0x20#8, 0x21#8, 0x22#8, 0x23#8, 0x24#8, 0x25#8] ∧ params.resetGpr = 0x0000#16 ∧
  params.resetCond = params.flZro ∧ params.eosValue = 0xFFFF#16 ∧
  params.inPrompt = "Enter a character: ".toList.map (fun ch => BitVec.ofNat 8 ch.toNat) ∧
  params.haltNotice = "HALT".toList.map (fun ch => BitVec.ofNat 8 ch.toNat) ++ [0x0A#8] ∧
  State.reset = State.resetWith params ∧ (∀ o ws, State.launch o ws = State.launchWith params o ws) ∧
  (∀ i s, exec i s = execWith params i s) ∧ ∀ s, step s = stepWith params s

/-- spec/40_cycle.md R110, R111, spec/10_state.md R32, at any parameters (the form: log 18): the step and the reset state.
R113's ends are the faults of log 3. That every instruction answers a next state (spec/60_exceptions.md R180) rests on the
model's form: a decode error is a state (log 4), and so is a read or a string routine that does not complete (R112, R116;
log 5, 6). -/
def Obligations.StepRunsTheDecodedInstructionAtAnyParameters : Prop :=
  ∀ (p : Config.Params) (s : State),
    (s.run = .running → s.hold = none →
      stepWith p s = execWith p (decodeWord p (s.memRead p s.pc).1) { (s.memRead p s.pc).2 with pc := s.pc + 1#16 }) ∧
    (s.run = .halted → stepWith p s = .fault .halted) ∧ (s.run = .aborted → stepWith p s = .fault .aborted) ∧
    (∀ i, ∃ t, execWith p i s = .next t) ∧
    (State.resetWith p).pc = p.pcStart ∧ (∀ i : Reg, (State.resetWith p).reg i = p.resetGpr) ∧
    (State.resetWith p).cond = p.resetCond ∧ (State.resetWith p).run = .running

/-- The invariant at any legal parameters: it holds at reset, and every step keeps it (spec/10_state.md R24,
spec/40_cycle.md R116, spec/45_trap.md R173; log 1, 5, 6). -/
def Obligations.StepKeepsTheInvariantAtAnyParameters : Prop :=
  ∀ p : Config.Params, p.Legal →
    StateInv p (State.resetWith p) ∧ ∀ s t : State, StateInv p s → stepWith p s = .next t → StateInv p t

/-- spec/92_eei_decisions.md, the summary of the parameters: other opcode numbers and trap vectors change the encodings and
nothing else. Two legal choices that agree on the rest execute each instruction, each by its own encoding, alike. -/
def Obligations.RenumberingChangesEncodingsOnly : Prop :=
  ∀ p q : Config.Params, p.Legal → q.Legal →
    (p.kbsr = q.kbsr ∧ p.kbdr = q.kbdr ∧ p.flags = q.flags ∧ p.eosValue = q.eosValue ∧ p.inPrompt = q.inPrompt ∧
      p.haltNotice = q.haltNotice) →
    ∀ (i : Instr) (s : State), i.wf p = true → i.wf q = true →
      execWith p (decodeWord p (encode p i)) s = execWith q (decodeWord q (encode q i)) s
end

