-- ==== Sys2Proof/Laws/Decode.lean ====
section
/-! SUPPORT. The fields of the encoding formats, read back (spec/30_encoding.md R81, R82), and the opcode map of any legal
parameters (R84, R86). -/

namespace Sys2Proof

/-! The opcode map -/

/-- Every opcode is in the list of all. -/
theorem Opcode.mem_all (o : Opcode) : o ∈ Opcode.all := by cases o <;> decide

/-- A number names no opcode exactly if it is the number of none (R86). -/
theorem opcodeOf_eq_none_iff (p : Config.Params) (n : BitVec 4) :
    opcodeOf p n = none ↔ ∀ o : Opcode, p.opcodeNumber o ≠ n := by
  simp only [opcodeOf, List.find?_eq_none, beq_iff_eq]
  exact ⟨fun h o => h o (Opcode.mem_all o), fun h o _ => h o⟩

/-- Where the map is injective, an opcode's number names it (R84). -/
theorem opcodeOf_opcodeNumber (p : Config.Params) (h : (Opcode.all.map p.opcodeNumber).Nodup) (o : Opcode) :
    opcodeOf p (p.opcodeNumber o) = some o := by
  have inj := List.inj_on_of_nodup_map h
  obtain ⟨q, hq⟩ : ∃ q, opcodeOf p (p.opcodeNumber o) = some q :=
    Option.ne_none_iff_exists'.mp fun e => (opcodeOf_eq_none_iff p _).mp e o rfl
  rw [hq, inj (Opcode.mem_all q) (Opcode.mem_all o) (by simpa using List.find?_some hq)]

/-- The undefined numbers of an injective map are two, both named by no opcode (R86). -/
theorem undefinedNumbers_eq_pair (p : Config.Params) (h : (Opcode.all.map p.opcodeNumber).Nodup) :
    undefinedNumbers p = [undefinedLow p, undefinedHigh p] ∧ undefinedLow p ≠ undefinedHigh p := by
  have hl : (undefinedNumbers p).length = 2 := by
    have hc := List.length_eq_length_filter_add (l := (List.range 16).map (BitVec.ofNat 4))
      (fun n => (opcodeOf p n).isNone)
    have hs : (((List.range 16).map (BitVec.ofNat 4)).filter (fun n => !(opcodeOf p n).isNone)).length = 14 := by
      rw [show 14 = (Opcode.all.map p.opcodeNumber).length from by simp [Opcode.all]]
      apply List.Perm.length_eq
      rw [List.perm_ext_iff_of_nodup (List.Nodup.filter _ (by decide)) h]
      intro n
      have hn : n ∈ (List.range 16).map (BitVec.ofNat 4) := by revert n; decide
      simp only [List.mem_filter, hn, true_and, List.mem_map, Bool.not_eq_true', Option.isNone_eq_false_iff]
      constructor
      · intro hi
        obtain ⟨o, ho⟩ := Option.isSome_iff_exists.mp hi
        exact ⟨o, Opcode.mem_all o, by simpa using List.find?_some ho⟩
      · rintro ⟨o, -, rfl⟩
        rw [opcodeOf_opcodeNumber p h]; rfl
    rw [hs] at hc
    have : (undefinedNumbers p).length + 14 = 16 := by simpa [undefinedNumbers] using hc.symm
    omega
  obtain ⟨a, b, e⟩ := List.length_eq_two.mp hl
  have hd : (undefinedNumbers p).Nodup := List.Nodup.filter _ (by decide)
  have h1 : undefinedLow p = a := by simp [undefinedLow, e]
  have h2 : undefinedHigh p = b := by simp [undefinedHigh, e]
  rw [e] at hd
  exact ⟨by rw [h1, h2, e], by rw [h1, h2]; simpa using hd⟩

theorem opcodeOf_undefinedLow (p : Config.Params) (h : (Opcode.all.map p.opcodeNumber).Nodup) :
    opcodeOf p (undefinedLow p) = none := by
  have hm : undefinedLow p ∈ undefinedNumbers p := by rw [(undefinedNumbers_eq_pair p h).1]; simp
  simpa using (List.mem_filter.mp hm).2

theorem opcodeOf_undefinedHigh (p : Config.Params) (h : (Opcode.all.map p.opcodeNumber).Nodup) :
    opcodeOf p (undefinedHigh p) = none := by
  have hm : undefinedHigh p ∈ undefinedNumbers p := by rw [(undefinedNumbers_eq_pair p h).1]; simp
  simpa using (List.mem_filter.mp hm).2

theorem undefinedLow_params : undefinedLow Machine.params = 0b1000#4 := by decide
theorem undefinedHigh_params : undefinedHigh Machine.params = 0b1101#4 := by decide

/-! The fields -/

section word6
variable (op : BitVec 4) (hi mid : BitVec 3) (low : BitVec 6)

theorem word6_mid : (word6 op hi mid low).extractLsb' 6 3 = mid := by
  unfold word6
  rw [BitVec.extractLsb'_append_eq_of_le (by decide)]
  exact BitVec.extractLsb'_append_eq_right

theorem word6_hi : (word6 op hi mid low).extractLsb' 9 3 = hi := by
  unfold word6
  rw [BitVec.extractLsb'_append_eq_of_le (by decide), BitVec.extractLsb'_append_eq_of_le (by decide)]
  exact BitVec.extractLsb'_append_eq_right

theorem word6_op : (word6 op hi mid low).extractLsb' 12 4 = op := by
  unfold word6
  rw [BitVec.extractLsb'_append_eq_of_le (by decide), BitVec.extractLsb'_append_eq_of_le (by decide)]
  exact BitVec.extractLsb'_append_eq_left

/-- A field within bits [5:0]. -/
theorem word6_low (a n : Nat) (h : a + n ≤ 6) : (word6 op hi mid low).extractLsb' a n = low.extractLsb' a n := by
  unfold word6
  exact BitVec.extractLsb'_append_eq_of_add_le h

theorem word6_bit11 : (word6 op hi mid low).extractLsb' 11 1 = hi.extractLsb' 2 1 := by
  unfold word6
  rw [BitVec.extractLsb'_append_eq_of_le (by decide), BitVec.extractLsb'_append_eq_of_le (by decide)]
  exact BitVec.extractLsb'_append_eq_of_add_le (by decide)

end word6

section word9
variable (op : BitVec 4) (hi : BitVec 3) (low : BitVec 9)

theorem word9_low : (word9 op hi low).extractLsb' 0 9 = low := by
  unfold word9
  exact BitVec.extractLsb'_append_eq_right

theorem word9_hi : (word9 op hi low).extractLsb' 9 3 = hi := by
  unfold word9
  rw [BitVec.extractLsb'_append_eq_of_le (by decide)]
  exact BitVec.extractLsb'_append_eq_right

theorem word9_op : (word9 op hi low).extractLsb' 12 4 = op := by
  unfold word9
  rw [BitVec.extractLsb'_append_eq_of_le (by decide)]
  exact BitVec.extractLsb'_append_eq_left

end word9

section word12
variable (op : BitVec 4) (low : BitVec 12)

theorem word12_op : (word12 op low).extractLsb' 12 4 = op := by
  unfold word12
  exact BitVec.extractLsb'_append_eq_left

/-- A field within bits [11:0]. -/
theorem word12_low (a n : Nat) (h : a + n ≤ 12) : (word12 op low).extractLsb' a n = low.extractLsb' a n := by
  unfold word12
  exact BitVec.extractLsb'_append_eq_of_add_le h

end word12

theorem low6Reg_bit5 (sr2 : Reg) : (low6Reg sr2).extractLsb' 5 1 = 0#1 := by
  revert sr2; decide
theorem low6Reg_sr2 (sr2 : Reg) : (low6Reg sr2).extractLsb' 0 3 = sr2 := by
  revert sr2; decide
theorem low6Imm_bit5 (imm5 : BitVec 5) : (low6Imm imm5).extractLsb' 5 1 = 1#1 := by
  revert imm5; decide
theorem low6Imm_imm5 (imm5 : BitVec 5) : (low6Imm imm5).extractLsb' 0 5 = imm5 := by
  revert imm5; decide
theorem low12Jsr_bit11 (off11 : BitVec 11) : (low12Jsr off11).extractLsb' 11 1 = 1#1 := by
  unfold low12Jsr
  exact BitVec.extractLsb'_append_eq_left
theorem low12Jsr_off11 (off11 : BitVec 11) : (low12Jsr off11).extractLsb' 0 11 = off11 := by
  unfold low12Jsr
  exact BitVec.extractLsb'_append_eq_right
theorem low12Trap_vect8 (vect8 : Byte) : (low12Trap vect8).extractLsb' 0 8 = vect8 := by
  unfold low12Trap
  exact BitVec.extractLsb'_append_eq_right

/-- Where a mask covers a field, a word that matches has the match's field. -/
theorem field_of_mask (w mask m : Word) (a n : Nat) (h : w &&& mask = m)
    (hm : mask.extractLsb' a n = BitVec.allOnes n) : w.extractLsb' a n = m.extractLsb' a n := by
  rw [← h, BitVec.extractLsb'_and, hm, BitVec.and_allOnes]

end Sys2Proof
end

