-- ==== Sys2Proof/Laws/Memory.lean ====
section
/-! SUPPORT. Memory: a read after a write, and the canonical form (spec/10_state.md R27, spec/20_memory.md R60). -/

namespace Sys2Proof.Machine

theorem Memory.lookup_filter_ne (m : Memory) (k j : Nat) :
    Memory.lookup (m.filter (fun c => c.1 != k)) j = if j = k then Memory.unlisted else Memory.lookup m j := by
  induction m with
  | nil => simp [Memory.lookup]
  | cons c rest ih =>
    by_cases hc : c.1 = k <;> by_cases hj : c.1 = j <;> by_cases hk : j = k <;>
      simp_all [Memory.lookup]

theorem Memory.lookup_insert (m : Memory) (k j : Nat) (v : Word) (h : ∀ c ∈ m, c.1 ≠ k) :
    Memory.lookup (Memory.insert m k v) j = if j = k then v else Memory.lookup m j := by
  induction m with
  | nil =>
    by_cases hj : j = k
    · simp [Memory.insert, Memory.lookup, hj]
    · simp [Memory.insert, Memory.lookup, hj, Ne.symm hj]
  | cons c rest ih =>
    obtain ⟨a, w⟩ := c
    have ha : a ≠ k := h (a, w) (by simp)
    have hr := ih (fun c hc => h c (by simp [hc]))
    by_cases hlt : k < a
    · by_cases hj : j = k
      · simp [Memory.insert, Memory.lookup, hlt, hj]
      · simp [Memory.insert, Memory.lookup, hlt, hj, Ne.symm hj]
    · by_cases hj : a = j
      · subst hj; simp [Memory.insert, Memory.lookup, hlt, ha]
      · simp [Memory.insert, Memory.lookup, hlt, hj, hr]

/-- A read after a write: the written word at its address, every other cell as before, in every memory. -/
@[simp] theorem Memory.read_write (m : Memory) (a b v : Word) :
    (m.write a v).read b = if b = a then v else m.read b := by
  have hab : b.toNat = a.toNat ↔ b = a := ⟨BitVec.eq_of_toNat_eq, fun e => by rw [e]⟩
  have hf : ∀ c ∈ m.filter (fun c => c.1 != a.toNat), c.1 ≠ a.toNat := by
    intro c hc; simpa using (List.mem_filter.mp hc).2
  by_cases hv : v = Memory.unlisted
  · simp [Memory.write, Memory.read, hv, Memory.lookup_filter_ne, hab]
  · simp only [Memory.write, Memory.read, hv, if_false, Memory.lookup_insert _ _ _ _ hf,
      Memory.lookup_filter_ne, hab]
    by_cases h : b = a <;> simp [h]

theorem Memory.mem_insert (m : Memory) (k : Nat) (v : Word) (c : Nat × Word) :
    c ∈ Memory.insert m k v ↔ c = (k, v) ∨ c ∈ m := by
  induction m with
  | nil => simp [Memory.insert]
  | cons d rest ih =>
    obtain ⟨a, w⟩ := d
    by_cases hlt : k < a
    · simp [Memory.insert, hlt]
    · simp only [Memory.insert, hlt, if_false, List.mem_cons, ih]; tauto

theorem Memory.insert_rising (m : Memory) (k : Nat) (v : Word) (h : m.Pairwise (fun c d => c.1 < d.1))
    (hk : ∀ c ∈ m, c.1 ≠ k) : (Memory.insert m k v).Pairwise (fun c d => c.1 < d.1) := by
  induction m with
  | nil => simp [Memory.insert]
  | cons d rest ih =>
    obtain ⟨a, w⟩ := d
    have hp := List.pairwise_cons.mp h
    have ha : a ≠ k := hk (a, w) (by simp)
    by_cases hlt : k < a
    · simp only [Memory.insert, hlt, if_true]
      refine List.pairwise_cons.mpr ⟨fun c hc => ?_, h⟩
      rcases List.mem_cons.mp hc with rfl | hc
      · exact hlt
      · exact lt_trans hlt (hp.1 c hc)
    · simp only [Memory.insert, hlt, if_false]
      refine List.pairwise_cons.mpr ⟨fun c hc => ?_, ih hp.2 (fun c hc => hk c (by simp [hc]))⟩
      rcases (Memory.mem_insert rest k v c).mp hc with rfl | hc
      · show a < k; omega
      · exact hp.1 c hc

/-- Every write keeps the canonical form. -/
theorem Memory.wf_write (m : Memory) (a v : Word) (h : m.wf) : (m.write a v).wf := by
  have hf : ∀ c ∈ m.filter (fun c => c.1 != a.toNat), c.1 ≠ a.toNat := by
    intro c hc; simpa using (List.mem_filter.mp hc).2
  have hp := h.1.filter (fun c => c.1 != a.toNat)
  have hc : ∀ c ∈ m.filter (fun c => c.1 != a.toNat), c.1 < 65536 ∧ c.2 ≠ Memory.unlisted :=
    fun c hc => h.2 c (List.mem_filter.mp hc).1
  by_cases hv : v = Memory.unlisted
  · have e : m.write a v = m.filter (fun c => c.1 != a.toNat) := by simp [Memory.write, hv]
    rw [e]; exact ⟨hp, hc⟩
  · have e : m.write a v = Memory.insert (m.filter (fun c => c.1 != a.toNat)) a.toNat v := by
      simp [Memory.write, hv]
    rw [e]
    refine ⟨Memory.insert_rising _ _ _ hp hf, fun c hm => ?_⟩
    rcases (Memory.mem_insert _ _ _ c).mp hm with rfl | hm
    · exact ⟨a.isLt, hv⟩
    · exact hc c hm

/-- Loading an image keeps the canonical form. -/
theorem Memory.wf_load (m : Memory) (o : Word) (ws : List Word) (h : m.wf) : (m.load o ws).wf := by
  induction ws generalizing m o with
  | nil => exact h
  | cons w ws ih => exact ih _ _ (Memory.wf_write m o w h)

/-- The reset memory has the canonical form, at any parameters. -/
theorem State.resetWith_mem_wf (p : Config.Params) : (State.resetWith p).mem.wf :=
  ⟨List.Pairwise.nil, fun _ h => nomatch h⟩

theorem State.reset_mem_wf : State.reset.mem.wf := State.resetWith_mem_wf params

end Sys2Proof.Machine
end

