-- ==== Sys2Proof/Laws/State.lean ====
section
/-! SUPPORT. One lemma per field per update of the state: later proofs unfold no record update. -/

namespace Sys2Proof.Machine

variable (s : State)

@[simp] theorem State.setReg_regs (i : Reg) (v : Word) : (s.setReg i v).regs = s.regs.set i.toNat v i.isLt := rfl
@[simp] theorem State.setReg_pc (i : Reg) (v : Word) : (s.setReg i v).pc = s.pc := rfl
@[simp] theorem State.setReg_cond (i : Reg) (v : Word) : (s.setReg i v).cond = s.cond := rfl
@[simp] theorem State.setReg_mem (i : Reg) (v : Word) : (s.setReg i v).mem = s.mem := rfl
@[simp] theorem State.setReg_run (i : Reg) (v : Word) : (s.setReg i v).run = s.run := rfl
@[simp] theorem State.setReg_hold (i : Reg) (v : Word) : (s.setReg i v).hold = s.hold := rfl
@[simp] theorem State.setReg_inp (i : Reg) (v : Word) : (s.setReg i v).inp = s.inp := rfl
@[simp] theorem State.setReg_supply (i : Reg) (v : Word) : (s.setReg i v).supply = s.supply := rfl
@[simp] theorem State.setReg_out (i : Reg) (v : Word) : (s.setReg i v).out = s.out := rfl
@[simp] theorem State.setReg_oracle (i : Reg) (v : Word) : (s.setReg i v).oracle = s.oracle := rfl
@[simp] theorem State.setReg_draws (i : Reg) (v : Word) : (s.setReg i v).draws = s.draws := rfl

@[simp] theorem State.setPc_regs (v : Word) : (s.setPc v).regs = s.regs := rfl
@[simp] theorem State.setPc_pc (v : Word) : (s.setPc v).pc = v := rfl
@[simp] theorem State.setPc_cond (v : Word) : (s.setPc v).cond = s.cond := rfl
@[simp] theorem State.setPc_mem (v : Word) : (s.setPc v).mem = s.mem := rfl
@[simp] theorem State.setPc_run (v : Word) : (s.setPc v).run = s.run := rfl
@[simp] theorem State.setPc_hold (v : Word) : (s.setPc v).hold = s.hold := rfl
@[simp] theorem State.setPc_inp (v : Word) : (s.setPc v).inp = s.inp := rfl
@[simp] theorem State.setPc_supply (v : Word) : (s.setPc v).supply = s.supply := rfl
@[simp] theorem State.setPc_out (v : Word) : (s.setPc v).out = s.out := rfl
@[simp] theorem State.setPc_oracle (v : Word) : (s.setPc v).oracle = s.oracle := rfl
@[simp] theorem State.setPc_draws (v : Word) : (s.setPc v).draws = s.draws := rfl

@[simp] theorem State.setCond_regs (v : Word) : (s.setCond v).regs = s.regs := rfl
@[simp] theorem State.setCond_pc (v : Word) : (s.setCond v).pc = s.pc := rfl
@[simp] theorem State.setCond_cond (v : Word) : (s.setCond v).cond = v := rfl
@[simp] theorem State.setCond_mem (v : Word) : (s.setCond v).mem = s.mem := rfl
@[simp] theorem State.setCond_run (v : Word) : (s.setCond v).run = s.run := rfl
@[simp] theorem State.setCond_hold (v : Word) : (s.setCond v).hold = s.hold := rfl
@[simp] theorem State.setCond_inp (v : Word) : (s.setCond v).inp = s.inp := rfl
@[simp] theorem State.setCond_supply (v : Word) : (s.setCond v).supply = s.supply := rfl
@[simp] theorem State.setCond_out (v : Word) : (s.setCond v).out = s.out := rfl
@[simp] theorem State.setCond_oracle (v : Word) : (s.setCond v).oracle = s.oracle := rfl
@[simp] theorem State.setCond_draws (v : Word) : (s.setCond v).draws = s.draws := rfl

@[simp] theorem State.memWrite_regs (a v : Word) : (s.memWrite a v).regs = s.regs := rfl
@[simp] theorem State.memWrite_pc (a v : Word) : (s.memWrite a v).pc = s.pc := rfl
@[simp] theorem State.memWrite_cond (a v : Word) : (s.memWrite a v).cond = s.cond := rfl
@[simp] theorem State.memWrite_mem (a v : Word) : (s.memWrite a v).mem = s.mem.write a v := rfl
@[simp] theorem State.memWrite_run (a v : Word) : (s.memWrite a v).run = s.run := rfl
@[simp] theorem State.memWrite_hold (a v : Word) : (s.memWrite a v).hold = s.hold := rfl
@[simp] theorem State.memWrite_inp (a v : Word) : (s.memWrite a v).inp = s.inp := rfl
@[simp] theorem State.memWrite_supply (a v : Word) : (s.memWrite a v).supply = s.supply := rfl
@[simp] theorem State.memWrite_out (a v : Word) : (s.memWrite a v).out = s.out := rfl
@[simp] theorem State.memWrite_oracle (a v : Word) : (s.memWrite a v).oracle = s.oracle := rfl
@[simp] theorem State.memWrite_draws (a v : Word) : (s.memWrite a v).draws = s.draws := rfl

@[simp] theorem State.setRun_regs (r : RunState) : (s.setRun r).regs = s.regs := rfl
@[simp] theorem State.setRun_pc (r : RunState) : (s.setRun r).pc = s.pc := rfl
@[simp] theorem State.setRun_cond (r : RunState) : (s.setRun r).cond = s.cond := rfl
@[simp] theorem State.setRun_mem (r : RunState) : (s.setRun r).mem = s.mem := rfl
@[simp] theorem State.setRun_run (r : RunState) : (s.setRun r).run = r := rfl
@[simp] theorem State.setRun_hold (r : RunState) : (s.setRun r).hold = s.hold := rfl
@[simp] theorem State.setRun_inp (r : RunState) : (s.setRun r).inp = s.inp := rfl
@[simp] theorem State.setRun_supply (r : RunState) : (s.setRun r).supply = s.supply := rfl
@[simp] theorem State.setRun_out (r : RunState) : (s.setRun r).out = s.out := rfl
@[simp] theorem State.setRun_oracle (r : RunState) : (s.setRun r).oracle = s.oracle := rfl
@[simp] theorem State.setRun_draws (r : RunState) : (s.setRun r).draws = s.draws := rfl

@[simp] theorem State.setHold_regs (h : Option Hold) : (s.setHold h).regs = s.regs := rfl
@[simp] theorem State.setHold_pc (h : Option Hold) : (s.setHold h).pc = s.pc := rfl
@[simp] theorem State.setHold_cond (h : Option Hold) : (s.setHold h).cond = s.cond := rfl
@[simp] theorem State.setHold_mem (h : Option Hold) : (s.setHold h).mem = s.mem := rfl
@[simp] theorem State.setHold_run (h : Option Hold) : (s.setHold h).run = s.run := rfl
@[simp] theorem State.setHold_hold (h : Option Hold) : (s.setHold h).hold = h := rfl
@[simp] theorem State.setHold_inp (h : Option Hold) : (s.setHold h).inp = s.inp := rfl
@[simp] theorem State.setHold_supply (h : Option Hold) : (s.setHold h).supply = s.supply := rfl
@[simp] theorem State.setHold_out (h : Option Hold) : (s.setHold h).out = s.out := rfl
@[simp] theorem State.setHold_oracle (h : Option Hold) : (s.setHold h).oracle = s.oracle := rfl
@[simp] theorem State.setHold_draws (h : Option Hold) : (s.setHold h).draws = s.draws := rfl

@[simp] theorem State.emit_regs (bs : List Byte) : (s.emit bs).regs = s.regs := rfl
@[simp] theorem State.emit_pc (bs : List Byte) : (s.emit bs).pc = s.pc := rfl
@[simp] theorem State.emit_cond (bs : List Byte) : (s.emit bs).cond = s.cond := rfl
@[simp] theorem State.emit_mem (bs : List Byte) : (s.emit bs).mem = s.mem := rfl
@[simp] theorem State.emit_run (bs : List Byte) : (s.emit bs).run = s.run := rfl
@[simp] theorem State.emit_hold (bs : List Byte) : (s.emit bs).hold = s.hold := rfl
@[simp] theorem State.emit_inp (bs : List Byte) : (s.emit bs).inp = s.inp := rfl
@[simp] theorem State.emit_supply (bs : List Byte) : (s.emit bs).supply = s.supply := rfl
@[simp] theorem State.emit_out (bs : List Byte) : (s.emit bs).out = s.out ++ bs := rfl
@[simp] theorem State.emit_oracle (bs : List Byte) : (s.emit bs).oracle = s.oracle := rfl
@[simp] theorem State.emit_draws (bs : List Byte) : (s.emit bs).draws = s.draws := rfl

@[simp] theorem State.setPc_reg (v : Word) (j : Reg) : (s.setPc v).reg j = s.reg j := rfl
@[simp] theorem State.setCond_reg (v : Word) (j : Reg) : (s.setCond v).reg j = s.reg j := rfl
@[simp] theorem State.memWrite_reg (a v : Word) (j : Reg) : (s.memWrite a v).reg j = s.reg j := rfl
@[simp] theorem State.setRun_reg (r : RunState) (j : Reg) : (s.setRun r).reg j = s.reg j := rfl
@[simp] theorem State.setHold_reg (h : Option Hold) (j : Reg) : (s.setHold h).reg j = s.reg j := rfl
@[simp] theorem State.emit_reg (bs : List Byte) (j : Reg) : (s.emit bs).reg j = s.reg j := rfl

/-- A write of one register is read back, and leaves the others (spec/10_state.md R20). -/
@[simp] theorem State.setReg_reg (i j : Reg) (v : Word) :
    (s.setReg i v).reg j = if j = i then v else s.reg j := by
  by_cases h : j = i
  · subst h; simp [State.reg, State.setReg]
  · have hn : i.toNat ≠ j.toNat := fun e => h (BitVec.eq_of_toNat_eq e.symm)
    simp [State.reg, State.setReg, hn, h]

end Sys2Proof.Machine
end

