-- ==== Sys2Proof/Laws/Ops.lean ====
section
/-! SUPPORT. One lemma per shared operation: all it can do. -/

namespace Sys2Proof.Machine

variable (p : Config.Params)

/-! Flags -/

/-- A flag computation gives one of the three flags (spec/10_state.md R24, R25). -/
theorem flagOf_mem_flags (v : Word) : flagOf p v ∈ p.flags := by
  unfold flagOf Config.Params.flags
  split <;> [simp; (split <;> simp)]

@[simp] theorem State.setRegCC_reg (s : State) (dr j : Reg) (v : Word) :
    (s.setRegCC p dr v).reg j = if j = dr then v else s.reg j := by simp [State.setRegCC, State.setCC]

@[simp] theorem State.setRegCC_cond (s : State) (dr : Reg) (v : Word) :
    (s.setRegCC p dr v).cond = flagOf p v := by simp [State.setRegCC, State.setCC]

@[simp] theorem State.setRegCC_pc (s : State) (dr : Reg) (v : Word) : (s.setRegCC p dr v).pc = s.pc := rfl
@[simp] theorem State.setRegCC_mem (s : State) (dr : Reg) (v : Word) : (s.setRegCC p dr v).mem = s.mem := rfl
@[simp] theorem State.setRegCC_run (s : State) (dr : Reg) (v : Word) : (s.setRegCC p dr v).run = s.run := rfl
@[simp] theorem State.setRegCC_hold (s : State) (dr : Reg) (v : Word) : (s.setRegCC p dr v).hold = s.hold := rfl
@[simp] theorem State.setRegCC_inp (s : State) (dr : Reg) (v : Word) : (s.setRegCC p dr v).inp = s.inp := rfl
@[simp] theorem State.setRegCC_supply (s : State) (dr : Reg) (v : Word) : (s.setRegCC p dr v).supply = s.supply := rfl
@[simp] theorem State.setRegCC_out (s : State) (dr : Reg) (v : Word) : (s.setRegCC p dr v).out = s.out := rfl
@[simp] theorem State.setRegCC_oracle (s : State) (dr : Reg) (v : Word) : (s.setRegCC p dr v).oracle = s.oracle := rfl
@[simp] theorem State.setRegCC_draws (s : State) (dr : Reg) (v : Word) : (s.setRegCC p dr v).draws = s.draws := rfl

/-! The keyboard: an event touches the input stream and the draws alone -/

/-- `t` differs from `s` in the input stream and the draws only. -/
structure KeyboardOnly (s t : State) : Prop where
  regs : t.regs = s.regs
  pc : t.pc = s.pc
  cond : t.cond = s.cond
  mem : t.mem = s.mem
  run : t.run = s.run
  hold : t.hold = s.hold
  out : t.out = s.out

theorem State.settle_keyboardOnly (s : State) : KeyboardOnly s s.settle := by
  unfold State.settle
  split
  · split <;> exact ⟨rfl, rfl, rfl, rfl, rfl, rfl, rfl⟩
  · exact ⟨rfl, rfl, rfl, rfl, rfl, rfl, rfl⟩

/-- A stream with listed bytes, or whose continuation the state fixes, is already settled. -/
theorem State.settle_eq_self (s : State) (h : s.inp ≠ [] ∨ s.supply ≠ .unfixed) : s.settle = s := by
  unfold State.settle
  split
  · next h1 h2 => simp [h1, h2] at h
  · rfl

theorem State.kbdPoll_keyboardOnly (s : State) : KeyboardOnly s (s.kbdPoll p).2 := by
  obtain ⟨h1, h2, h3, h4, h5, h6, h7⟩ := s.settle_keyboardOnly
  unfold State.kbdPoll
  dsimp only
  split
  · split <;> exact ⟨h1, h2, h3, h4, h5, h6, h7⟩
  · split <;> exact ⟨h1, h2, h3, h4, h5, h6, h7⟩
  · exact ⟨h1, h2, h3, h4, h5, h6, h7⟩

theorem State.kbdGet_keyboardOnly (s : State) : KeyboardOnly s (s.kbdGet p).2 := by
  obtain ⟨h1, h2, h3, h4, h5, h6, h7⟩ := s.settle_keyboardOnly
  unfold State.kbdGet
  dsimp only
  split <;> exact ⟨h1, h2, h3, h4, h5, h6, h7⟩

/-- `t` follows `s` by one keyboard event: at most the front byte of the settled stream is taken. -/
structure KeyboardEvent (s t : State) : Prop where
  suffix : t.inp <:+ s.settle.inp
  atMostOne : s.settle.inp.length ≤ t.inp.length + 1
  supply : t.supply = s.settle.supply
  draws : t.draws = s.draws + 1

theorem State.kbdPoll_event (s : State) : KeyboardEvent s (s.kbdPoll p).2 := by
  unfold State.kbdPoll
  dsimp only
  split
  · split <;> constructor <;> simp_all
  · split <;> constructor <;> simp_all
  · constructor <;> simp_all

/-- A poll that answers NotReady consumes nothing (spec/20_memory.md R54). -/
theorem State.kbdPoll_notReady_inp (s : State) (h : (s.kbdPoll p).1 = .notReady) :
    (s.kbdPoll p).2.inp = s.settle.inp := by
  revert h
  unfold State.kbdPoll
  dsimp only
  split
  · split <;> simp_all
  · split <;> simp_all
  · simp_all

/-- A poll uses up one answer fixed in advance. -/
theorem State.kbdPoll_oracle (s : State) : (s.kbdPoll p).2.oracle = s.oracle.tail := by
  unfold State.kbdPoll
  dsimp only
  split
  · split <;> rfl
  · split <;> rfl
  · rfl

theorem State.kbdGet_event (s : State) : KeyboardEvent s (s.kbdGet p).2 := by
  unfold State.kbdGet
  dsimp only
  split <;> constructor <;> simp_all

/-- Output does not bear on a blocking read. -/
theorem State.kbdGet_emit (s : State) (bs : List Byte) :
    (s.emit bs).kbdGet p = ((s.kbdGet p).1, (s.kbdGet p).2.emit bs) := by
  have h : (s.emit bs).settle = s.settle.emit bs := by
    unfold State.settle State.emit
    dsimp only
    split <;> (try split) <;> rfl
  unfold State.kbdGet
  rw [h]
  dsimp only [State.emit_inp, State.emit_supply, State.emit_draws]
  split <;> rfl

/-! Memory reads -/

theorem State.memRead_plain (s : State) (a : Word) (h : a ≠ p.kbsr) : s.memRead p a = (s.mem.read a, s) := by
  simp [State.memRead, h]

/-- A `MemRead` of the keyboard-status address: the poll, its two cells, then the cell (spec/20_memory.md R51). -/
theorem State.memRead_kbsr (s : State) :
    s.memRead p p.kbsr =
      (((s.kbdPoll p).2.storePoll p (s.kbdPoll p).1).mem.read p.kbsr, (s.kbdPoll p).2.storePoll p (s.kbdPoll p).1) := by
  simp [State.memRead]

theorem State.storePoll_frame (s : State) (r : PollAnswer) :
    (s.storePoll p r).regs = s.regs ∧ (s.storePoll p r).pc = s.pc ∧ (s.storePoll p r).cond = s.cond ∧
      (s.storePoll p r).run = s.run ∧ (s.storePoll p r).hold = s.hold ∧ (s.storePoll p r).out = s.out := by
  cases r <;> simp [State.storePoll]

/-- A `MemRead` changes nothing but the two keyboard cells, the input stream and the draws. -/
theorem State.memRead_frame (s : State) (a : Word) :
    (s.memRead p a).2.regs = s.regs ∧ (s.memRead p a).2.pc = s.pc ∧ (s.memRead p a).2.cond = s.cond ∧
      (s.memRead p a).2.run = s.run ∧ (s.memRead p a).2.hold = s.hold ∧ (s.memRead p a).2.out = s.out := by
  by_cases h : a = p.kbsr
  · subst h
    obtain ⟨k1, k2, k3, -, k5, k6, k7⟩ := s.kbdPoll_keyboardOnly p
    obtain ⟨p1, p2, p3, p4, p5, p6⟩ := (s.kbdPoll p).2.storePoll_frame p (s.kbdPoll p).1
    rw [State.memRead_kbsr]
    exact ⟨p1.trans k1, p2.trans k2, p3.trans k3, p4.trans k5, p5.trans k6, p6.trans k7⟩
  · simp [State.memRead_plain p s a h]

@[simp] theorem State.memRead_regs (s : State) (a : Word) : (s.memRead p a).2.regs = s.regs := (s.memRead_frame p a).1
@[simp] theorem State.memRead_reg (s : State) (a : Word) (j : Reg) : (s.memRead p a).2.reg j = s.reg j := by
  simp [State.reg]
@[simp] theorem State.memRead_pc (s : State) (a : Word) : (s.memRead p a).2.pc = s.pc := (s.memRead_frame p a).2.1
@[simp] theorem State.memRead_cond (s : State) (a : Word) : (s.memRead p a).2.cond = s.cond :=
  (s.memRead_frame p a).2.2.1
@[simp] theorem State.memRead_run (s : State) (a : Word) : (s.memRead p a).2.run = s.run :=
  (s.memRead_frame p a).2.2.2.1
@[simp] theorem State.memRead_hold (s : State) (a : Word) : (s.memRead p a).2.hold = s.hold :=
  (s.memRead_frame p a).2.2.2.2.1
@[simp] theorem State.memRead_out (s : State) (a : Word) : (s.memRead p a).2.out = s.out :=
  (s.memRead_frame p a).2.2.2.2.2

theorem State.storePoll_read_other (s : State) (r : PollAnswer) (b : Word) (h1 : b ≠ p.kbsr)
    (h2 : b ≠ p.kbdr) : (s.storePoll p r).mem.read b = s.mem.read b := by
  cases r <;> simp [State.storePoll, h1, h2]

/-- A `MemRead` leaves every cell but the two keyboard cells. -/
theorem State.memRead_read_other (s : State) (a b : Word) (h1 : b ≠ p.kbsr) (h2 : b ≠ p.kbdr) :
    (s.memRead p a).2.mem.read b = s.mem.read b := by
  by_cases h : a = p.kbsr
  · subst h
    rw [State.memRead_kbsr]
    simp [State.storePoll_read_other _ _ _ b h1 h2, (State.kbdPoll_keyboardOnly p s).mem]
  · simp [State.memRead_plain p s a h]

theorem State.storePoll_mem_wf (s : State) (r : PollAnswer) (h : s.mem.wf) : (s.storePoll p r).mem.wf := by
  cases r with
  | ready w =>
    simp only [State.storePoll, State.memWrite_mem]
    exact Memory.wf_write _ _ _ (Memory.wf_write _ _ _ h)
  | notReady =>
    simp only [State.storePoll, State.memWrite_mem]
    exact Memory.wf_write _ _ _ h

/-- A `MemRead` keeps the canonical form. -/
theorem State.memRead_mem_wf (s : State) (a : Word) (h : s.mem.wf) : (s.memRead p a).2.mem.wf := by
  by_cases ha : a = p.kbsr
  · subst ha
    rw [State.memRead_kbsr]
    exact State.storePoll_mem_wf _ _ _ (by rw [(State.kbdPoll_keyboardOnly p s).mem]; exact h)
  · simpa [State.memRead_plain p s a ha] using h

/-- The fetch changes the pc, and otherwise what its `MemRead` changes (spec/40_cycle.md R110). -/
theorem State.fetch_eq (s : State) :
    s.fetch p = ((s.memRead p s.pc).1, (s.memRead p s.pc).2.setPc (s.pc + 1#16)) := by
  simp [State.fetch]

/-! Trap routines -/

/-- GETC and the reading half of IN: one keyboard event, then either R0 and the end of the hold, or the hold. -/
theorem routineGetc_cases (s : State) :
    (∃ w, (s.kbdGet p).1 = some w ∧ routineGetc p s = ((s.kbdGet p).2.setReg trapReg w).setHold none) ∨
      ((s.kbdGet p).1 = none ∧ routineGetc p s = (s.kbdGet p).2.setHold (some .getc)) := by
  unfold routineGetc
  split
  · next w t h => exact .inl ⟨w, by rw [h], by rw [h]⟩
  · next t h => exact .inr ⟨by rw [h], by rw [h]⟩

theorem routineInRead_cases (s : State) :
    (∃ w, (s.kbdGet p).1 = some w ∧
        routineInRead p s = (((s.kbdGet p).2.emit [low8 w]).setReg trapReg w).setHold none) ∨
      ((s.kbdGet p).1 = none ∧ routineInRead p s = (s.kbdGet p).2.setHold (some .input)) := by
  unfold routineInRead
  split
  · next w t h => exact .inl ⟨w, by rw [h], by rw [h]⟩
  · next t h => exact .inr ⟨by rw [h], by rw [h]⟩

/-- One word on in the walk. -/
theorem word_add_succ (a : Word) (k : Nat) : a + 1#16 + BitVec.ofNat 16 k = a + BitVec.ofNat 16 (k + 1) := by
  rw [BitVec.add_assoc]; congr 1
  apply BitVec.eq_of_toNat_eq; simp; omega

/-- Every address is some number of words on from any other. -/
theorem word_add_sub (a b : Word) : a + BitVec.ofNat 16 (b - a).toNat = b := by
  rw [BitVec.ofNat_toNat, BitVec.setWidth_eq, BitVec.add_comm, BitVec.sub_add_cancel]

/-- A walk that meets no zero word has read `fuel` non-zero words. -/
theorem stringWalk_unended (bytesOf : Word → List Byte) (m : Memory) (fuel : Nat) (a : Word)
    (h : (stringWalk bytesOf m fuel a).2 = false) :
    ∀ k : Nat, k < fuel → m.read (a + BitVec.ofNat 16 k) ≠ 0x0000#16 := by
  induction fuel generalizing a with
  | zero => intro k hk; omega
  | succ fuel ih =>
    intro k hk
    by_cases hz : m.read a = 0x0000#16
    · simp [stringWalk, hz] at h
    · simp only [stringWalk, hz, if_false] at h
      cases k with
      | zero => simpa using hz
      | succ k => simpa [word_add_succ] using ih (a + 1#16) h k (by omega)

/-- A whole lap that meets no zero word: the memory has none. -/
theorem stringWalk_lap_unended (bytesOf : Word → List Byte) (m : Memory) (a : Word)
    (h : (stringWalk bytesOf m lapWords a).2 = false) (b : Word) : m.read b ≠ 0x0000#16 := by
  have := stringWalk_unended bytesOf m lapWords a h (b - a).toNat (b - a).isLt
  rwa [word_add_sub] at this

/-- A walk over the words of a string ended by a zero word emits their bytes and ends. -/
theorem stringWalk_string (bytesOf : Word → List Byte) (m : Memory) (ws : List Word) (fuel : Nat) (a : Word)
    (hl : ws.length < fuel)
    (hk : ∀ (k : Nat) (h : k < ws.length), m.read (a + BitVec.ofNat 16 k) = ws[k] ∧ ws[k] ≠ 0x0000#16)
    (hz : m.read (a + BitVec.ofNat 16 ws.length) = 0x0000#16) :
    stringWalk bytesOf m fuel a = (ws.flatMap bytesOf, true) := by
  induction ws generalizing fuel a with
  | nil =>
    obtain ⟨n, rfl⟩ := Nat.exists_eq_succ_of_ne_zero (by simp at hl; omega : fuel ≠ 0)
    have : m.read a = 0x0000#16 := by simpa using hz
    simp [stringWalk, this]
  | cons w ws ih =>
    obtain ⟨n, rfl⟩ := Nat.exists_eq_succ_of_ne_zero (by simp at hl; omega : fuel ≠ 0)
    have h0 : m.read (a + BitVec.ofNat 16 0) = w ∧ w ≠ 0x0000#16 := hk 0 (by simp)
    rw [BitVec.add_zero] at h0
    have hn : ¬ m.read a = 0x0000#16 := by rw [h0.1]; exact h0.2
    have hr := ih n (a + 1#16) (by simpa using hl)
      (fun k h => by rw [word_add_succ]; exact hk (k + 1) (by simpa using h))
      (by rw [word_add_succ]; simpa using hz)
    rw [stringWalk, if_neg hn, hr, h0.1]
    rfl

/-- A walk over a memory with no zero word emits `fuel` words' bytes and does not end. -/
theorem stringWalk_noZero (bytesOf : Word → List Byte) (m : Memory) (h : ∀ b : Word, m.read b ≠ 0x0000#16)
    (fuel : Nat) (a : Word) :
    stringWalk bytesOf m fuel a =
      ((List.range fuel).flatMap (fun k => bytesOf (m.read (a + BitVec.ofNat 16 k))), false) := by
  induction fuel generalizing a with
  | zero => rfl
  | succ n ih =>
    rw [stringWalk, if_neg (h a), ih, List.range_succ_eq_map, List.flatMap_cons, List.flatMap_map]
    simp [word_add_succ]

/-- A string routine emits, and ends or holds; nothing else changes. -/
theorem routineString_eq (bytesOf : Word → List Byte) (h : Hold) (s : State) :
    routineString bytesOf h s =
      (s.emit (stringWalk bytesOf s.mem lapWords (s.reg trapReg)).1).setHold
        (if (stringWalk bytesOf s.mem lapWords (s.reg trapReg)).2 then none else some h) := rfl

end Sys2Proof.Machine
end

