-- ==== Sys2Proof/Laws/PerInstr.lean ====
section
/-! SUPPORT. Statements made for every instruction, one lemma per constructor. -/

namespace Sys2Proof.Laws.EncodedBits

/-- The fixed bits of an instruction's row, as lowest bit, length and value (spec/30_encoding.md R85, R86, R94). -/
def fixedBits : Instr → List (Nat × Nat × Nat)
  | .addReg _ _ _ => [(12, 4, 1), (5, 1, 0)]
  | .addImm _ _ _ => [(12, 4, 1), (5, 1, 1)]
  | .andReg _ _ _ => [(12, 4, 5), (5, 1, 0)]
  | .andImm _ _ _ => [(12, 4, 5), (5, 1, 1)]
  | .notReg _ _ => [(12, 4, 9)]
  | .br _ _ => [(12, 4, 0)]
  | .jmp _ => [(12, 4, 12)]
  | .jsr _ => [(12, 4, 4), (11, 1, 1)]
  | .jsrr _ => [(12, 4, 4), (11, 1, 0)]
  | .ld _ _ => [(12, 4, 2)]
  | .ldi _ _ => [(12, 4, 10)]
  | .ldr _ _ _ => [(12, 4, 6)]
  | .lea _ _ => [(12, 4, 14)]
  | .st _ _ => [(12, 4, 3)]
  | .sti _ _ => [(12, 4, 11)]
  | .str _ _ _ => [(12, 4, 7)]
  | .trap _ => [(12, 4, 15)]
  | .undef8 _ => [(12, 4, 8)]
  | .undefD _ => [(12, 4, 13)]
  | .trapGetc => [(12, 4, 15), (0, 8, 32)]
  | .trapOut => [(12, 4, 15), (0, 8, 33)]
  | .trapPuts => [(12, 4, 15), (0, 8, 34)]
  | .trapIn => [(12, 4, 15), (0, 8, 35)]
  | .trapPutsp => [(12, 4, 15), (0, 8, 36)]
  | .trapHalt => [(12, 4, 15), (0, 8, 37)]

/-- The encoding of an instruction has the fixed bits of its row. -/
def Statement (i : Instr) : Prop :=
  i.wf Machine.params = true → ∀ f ∈ fixedBits i, (encode Machine.params i).extractLsb' f.1 f.2.1 = BitVec.ofNat f.2.1 f.2.2

theorem addReg (dr sr1 sr2 : Reg) : Statement (.addReg dr sr1 sr2) := by
  simp [Statement, fixedBits, encode, Machine.params, word6_op, word6_low, low6Reg_bit5]
theorem addImm (dr sr1 : Reg) (imm5 : BitVec 5) : Statement (.addImm dr sr1 imm5) := by
  simp [Statement, fixedBits, encode, Machine.params, word6_op, word6_low, low6Imm_bit5]
theorem andReg (dr sr1 sr2 : Reg) : Statement (.andReg dr sr1 sr2) := by
  simp [Statement, fixedBits, encode, Machine.params, word6_op, word6_low, low6Reg_bit5]
theorem andImm (dr sr1 : Reg) (imm5 : BitVec 5) : Statement (.andImm dr sr1 imm5) := by
  simp [Statement, fixedBits, encode, Machine.params, word6_op, word6_low, low6Imm_bit5]
theorem notReg (dr sr : Reg) : Statement (.notReg dr sr) := by
  simp [Statement, fixedBits, encode, Machine.params, word6_op]
theorem br (cond3 : BitVec 3) (off9 : BitVec 9) : Statement (.br cond3 off9) := by
  simp [Statement, fixedBits, encode, Machine.params, word9_op]
theorem jmp (baseR : Reg) : Statement (.jmp baseR) := by
  simp [Statement, fixedBits, encode, Machine.params, word6_op]
theorem jsr (off11 : BitVec 11) : Statement (.jsr off11) := by
  simp [Statement, fixedBits, encode, Machine.params, word12_op, word12_low, low12Jsr_bit11]
theorem jsrr (baseR : Reg) : Statement (.jsrr baseR) := by
  simp [Statement, fixedBits, encode, Machine.params, word6_op, word6_bit11]
theorem ld (dr : Reg) (off9 : BitVec 9) : Statement (.ld dr off9) := by
  simp [Statement, fixedBits, encode, Machine.params, word9_op]
theorem ldi (dr : Reg) (off9 : BitVec 9) : Statement (.ldi dr off9) := by
  simp [Statement, fixedBits, encode, Machine.params, word9_op]
theorem ldr (dr baseR : Reg) (off6 : BitVec 6) : Statement (.ldr dr baseR off6) := by
  simp [Statement, fixedBits, encode, Machine.params, word6_op]
theorem lea (dr : Reg) (off9 : BitVec 9) : Statement (.lea dr off9) := by
  simp [Statement, fixedBits, encode, Machine.params, word9_op]
theorem st (sr : Reg) (off9 : BitVec 9) : Statement (.st sr off9) := by
  simp [Statement, fixedBits, encode, Machine.params, word9_op]
theorem sti (sr : Reg) (off9 : BitVec 9) : Statement (.sti sr off9) := by
  simp [Statement, fixedBits, encode, Machine.params, word9_op]
theorem str (sr baseR : Reg) (off6 : BitVec 6) : Statement (.str sr baseR off6) := by
  simp [Statement, fixedBits, encode, Machine.params, word6_op]
theorem trap (vect8 : Byte) : Statement (.trap vect8) := by
  simp [Statement, fixedBits, encode, Machine.params, word12_op]
theorem undef8 (low12 : BitVec 12) : Statement (.undef8 low12) := by
  simp [Statement, fixedBits, encode, word12_op, undefinedLow_params]
theorem undefD (low12 : BitVec 12) : Statement (.undefD low12) := by
  simp [Statement, fixedBits, encode, word12_op, undefinedHigh_params]
theorem trapGetc : Statement (.trapGetc) := by
  intro _; decide
theorem trapOut : Statement (.trapOut) := by
  intro _; decide
theorem trapPuts : Statement (.trapPuts) := by
  intro _; decide
theorem trapIn : Statement (.trapIn) := by
  intro _; decide
theorem trapPutsp : Statement (.trapPutsp) := by
  intro _; decide
theorem trapHalt : Statement (.trapHalt) := by
  intro _; decide

end Sys2Proof.Laws.EncodedBits
end

