-- ==== Sys2Proof/Laws/Step.lean ====
section
/-! SUPPORT. What an instruction and a step do, as equations and as one inversion, at any parameters and at the
spec's: later proofs unfold neither `exec` nor `step`. -/

namespace Sys2Proof.Machine

variable (p : Config.Params)

/-- The successor state of an instruction (spec/40_cycle.md R111), at any parameters: every one has exactly one. -/
def effect (p : Config.Params) (i : Instr) (s : State) : State :=
  match i with
  | .addReg dr sr1 sr2 => s.setRegCC p dr (s.reg sr1 + s.reg sr2)
  | .addImm dr sr1 imm5 => s.setRegCC p dr (s.reg sr1 + immOperand imm5)
  | .andReg dr sr1 sr2 => s.setRegCC p dr (s.reg sr1 &&& s.reg sr2)
  | .andImm dr sr1 imm5 => s.setRegCC p dr (s.reg sr1 &&& immOperand imm5)
  | .notReg dr sr => s.setRegCC p dr (~~~ s.reg sr)
  | .br cond3 off9 => if s.condTest cond3 then s.setPc (s.pcRel9 off9) else s
  | .jmp baseR => s.setPc (s.reg baseR)
  | .jsr off11 => (s.setReg linkReg s.pc).setPc (s.pcRel11 off11)
  | .jsrr baseR => (s.setReg linkReg s.pc).setPc ((s.setReg linkReg s.pc).reg baseR)
  | .ld dr off9 => (s.memRead p (s.pcRel9 off9)).2.setRegCC p dr (s.memRead p (s.pcRel9 off9)).1
  | .ldi dr off9 => ((s.indirect p off9).2.memRead p (s.indirect p off9).1).2.setRegCC p dr
        ((s.indirect p off9).2.memRead p (s.indirect p off9).1).1
  | .ldr dr baseR off6 => (s.memRead p (s.baseOffset baseR off6)).2.setRegCC p dr (s.memRead p (s.baseOffset baseR off6)).1
  | .lea dr off9 => s.setRegCC p dr (s.pcRel9 off9)
  | .st sr off9 => s.memWrite (s.pcRel9 off9) (s.reg sr)
  | .sti sr off9 => (s.indirect p off9).2.memWrite (s.indirect p off9).1 ((s.indirect p off9).2.reg sr)
  | .str sr baseR off6 => s.memWrite (s.baseOffset baseR off6) (s.reg sr)
  | .trap vect8 => trapRoutine p vect8 s
  | .undef8 _ => s.raiseDecodeError
  | .undefD _ => s.raiseDecodeError
  | .trapGetc => routineGetc p s
  | .trapOut => routineOut s
  | .trapPuts => routinePuts s
  | .trapIn => routineIn p s
  | .trapPutsp => routinePutsp s
  | .trapHalt => routineHalt p s

/-- `execWith` answers the effect of the instruction, always. -/
theorem execWith_eq_effect (i : Instr) (s : State) : execWith p i s = .next (effect p i s) := by
  cases i <;> rfl

/-- The machine's `exec` is `execWith` at the spec's values of the parameters. -/
theorem exec_eq_execWith (i : Instr) (s : State) : exec i s = execWith params i s := by
  cases i <;> rfl

/-- The machine's `step` is `stepWith` at the spec's values of the parameters. -/
theorem step_eq_stepWith (s : State) : step s = stepWith params s := by
  cases hr : s.run <;> cases hh : s.hold <;> simp [step, stepWith, hr, hh, exec_eq_execWith]

theorem exec_eq_effect (i : Instr) (s : State) : exec i s = .next (effect params i s) := by
  rw [exec_eq_execWith, execWith_eq_effect]

theorem exec_next_iff (i : Instr) (s t : State) : exec i s = .next t ↔ t = effect params i s := by
  rw [exec_eq_effect, Host.Outcome.next.injEq]; exact eq_comm

/-- All a step can do when it answers a next state: go on with a held routine, or run the fetched instruction. -/
theorem stepWith_next_iff (s t : State) :
    stepWith p s = .next t ↔ s.run = .running ∧
      ((∃ h, s.hold = some h ∧ t = resumeHold p h s) ∨
        (s.hold = none ∧ t = effect p (decodeWord p (s.fetch p).1) (s.fetch p).2)) := by
  cases hr : s.run <;> cases hh : s.hold <;> simp [stepWith, hr, hh, execWith_eq_effect, eq_comm]

theorem step_next_iff (s t : State) :
    step s = .next t ↔ s.run = .running ∧
      ((∃ h, s.hold = some h ∧ t = resumeHold params h s) ∨
        (s.hold = none ∧ t = effect params (decodeWord params (s.fetch params).1) (s.fetch params).2)) := by
  rw [step_eq_stepWith, stepWith_next_iff]

/-- A routine of GETC, begun or held, touches R0, the hold, the input and the draws alone. -/
theorem routineGetc_frame (s : State) :
    (routineGetc p s).pc = s.pc ∧ (routineGetc p s).cond = s.cond ∧ (routineGetc p s).mem = s.mem ∧
      (routineGetc p s).run = s.run ∧ (routineGetc p s).out = s.out ∧
      (∀ j : Reg, j ≠ trapReg → (routineGetc p s).reg j = s.reg j) ∧
      ((routineGetc p s).hold = none ∨ (routineGetc p s).hold = some .getc) := by
  obtain ⟨k1, k2, k3, k4, k5, -, k7⟩ := s.kbdGet_keyboardOnly p
  have kr : ∀ j : Reg, (s.kbdGet p).2.reg j = s.reg j := fun j => by simp [State.reg, k1]
  rcases routineGetc_cases p s with ⟨w, -, e⟩ | ⟨-, e⟩ <;> rw [e] <;>
    simp +contextual [k2, k3, k4, k5, k7, kr]

/-- A routine of IN past its prompt, begun or held, touches R0, the hold, the output, the input and the draws alone. -/
theorem routineInRead_frame (s : State) :
    (routineInRead p s).pc = s.pc ∧ (routineInRead p s).cond = s.cond ∧ (routineInRead p s).mem = s.mem ∧
      (routineInRead p s).run = s.run ∧ (∃ bs, (routineInRead p s).out = s.out ++ bs) ∧
      (∀ j : Reg, j ≠ trapReg → (routineInRead p s).reg j = s.reg j) ∧
      ((routineInRead p s).hold = none ∨ (routineInRead p s).hold = some .input) := by
  obtain ⟨k1, k2, k3, k4, k5, -, k7⟩ := s.kbdGet_keyboardOnly p
  have kr : ∀ j : Reg, (s.kbdGet p).2.reg j = s.reg j := fun j => by simp [State.reg, k1]
  rcases routineInRead_cases p s with ⟨w, -, e⟩ | ⟨-, e⟩ <;> rw [e] <;>
    simp +contextual [k2, k3, k4, k5, k7, kr]

end Sys2Proof.Machine
end

