-- ==== Sys2Proof/Tests/Slice0.lean ====
section
/-! SUPPORT. The model's own tests: expected results from spec/95_test_vectors.md (row named at each test) or worked out
from the rule named; and a witness for the hypotheses of every statement in Certificates/Slice0/Obligations.lean. -/

namespace Sys2Proof.Machine

/-- The conventions of spec/95_test_vectors.md, Execute level: reset state, pc at 0x3001, no input fixed to come. -/
def lab : State := { State.reset with pc := 0x3001#16, supply := .withheld }

/-- `lab` with some registers, cells and input bytes, polls answering as `oracle` says. -/
def labWith (regs cells : List (Word × Word)) (inp : List Byte) (oracle : List Bool) : State :=
  { (cells.foldl (fun s c => s.memWrite c.1 c.2)
      (regs.foldl (fun s c => s.setReg (c.1.setWidth 3) c.2) lab)) with inp := inp, oracle := oracle }

/-- A view of the next state, if there is one. -/
def after {α : Type} (o : Host.Outcome State Fault Refusal) (view : State → α) : Option α :=
  match o with
  | .next t => some (view t)
  | .fault _ => none
  | .refused _ => none

/-! Well-formedness, and decoding by words written out from spec/30_encoding.md R85 -/

theorem test_wf_refuses_table_vector : (Instr.trap 0x20#8).wf params = false ∧ (Instr.trap 0x25#8).wf params = false := by decide
theorem test_wf_accepts_other_vector : (Instr.trap 0x1F#8).wf params = true ∧ (Instr.trap 0x26#8).wf params = true := by decide
theorem test_params_legal : params.Legal := by decide
/-- Another legal choice of the parameters: 0b1101 for ADD, other flag words, vectors, addresses, start and bytes. -/
def otherParams : Config.Params :=
  { params with opcAdd := 0b1101#4, flPos := 0x0004#16, flNeg := 0x0001#16, tvGetc := 0x25#8, tvHalt := 0x20#8,
                kbsr := 0x8000#16, kbdr := 0x8001#16, pcStart := 0x0200#16, eosValue := 0x0000#16, haltNotice := [] }
theorem test_other_params_legal : otherParams.Legal := by decide
/-- R84, R86 read with those numbers: ADD is 0b1101, and 0b0001 and 0b1000 are the undefined two. -/
theorem test_other_params_decode :
    decodeWord otherParams 0b1101_001_111_1_11101#16 = .addImm 1#3 7#3 0b11101#5 ∧
    decodeWord otherParams 0b0001_000000000101#16 = .undef8 5#12 ∧
    decodeWord otherParams 0b1000_000000000101#16 = .undefD 5#12 ∧
    decodeWord otherParams 0b1111_0000_00100000#16 = .trapHalt := by decide
/-- One step from their reset with R0 of 0 plus 1: COND takes their word for POSITIVE, pc moves on from their start. -/
theorem test_other_params_step :
    after (stepWith otherParams ((State.resetWith otherParams).memWrite 0x0200#16 0b1101_000_000_1_00001#16))
      (fun t => (t.reg 0#3, t.cond, t.pc)) = some (0x0001#16, 0x0004#16, 0x0201#16) := by decide
theorem test_decode_no_word : decode params [] = .error .noWord := rfl
/-- 95 B7's forms, one word each; `decodeTableWord` on the same bits. -/
theorem test_decode_operate :
    decodeWord params 0b0001_001_010_0_00_011#16 = .addReg 1#3 2#3 3#3 ∧
    decodeWord params 0b0001_001_111_1_11101#16 = .addImm 1#3 7#3 0b11101#5 ∧
    decodeWord params 0b0101_100_101_0_00_110#16 = .andReg 4#3 5#3 6#3 ∧
    decodeWord params 0b0101_010_011_1_01111#16 = .andImm 2#3 3#3 0b01111#5 ∧
    decodeWord params 0b1001_010_011_111111#16 = .notReg 2#3 3#3 := by decide
theorem test_decode_control :
    decodeWord params 0b0000_100_000000101#16 = .br 0b100#3 5#9 ∧
    decodeWord params 0b1100_000_111_000000#16 = .jmp 7#3 ∧
    decodeWord params 0b0100_1_10000000000#16 = .jsr 0b10000000000#11 ∧
    decodeWord params 0b0100_0_00_010_000000#16 = .jsrr 2#3 := by decide
theorem test_decode_load :
    decodeWord params 0b0010_010_000000010#16 = .ld 2#3 2#9 ∧
    decodeWord params 0b1010_111_000000010#16 = .ldi 7#3 2#9 ∧
    decodeWord params 0b0110_100_101_111111#16 = .ldr 4#3 5#3 0b111111#6 ∧
    decodeWord params 0b1110_000_000000101#16 = .lea 0#3 5#9 := by decide
theorem test_decode_store :
    decodeWord params 0b0011_011_000000100#16 = .st 3#3 4#9 ∧
    decodeWord params 0b1011_001_000000001#16 = .sti 1#3 1#9 ∧
    decodeWord params 0b0111_000_110_000011#16 = .str 0#3 6#3 3#6 := by decide
theorem test_decode_trap :
    decodeWord params 0b1111_0000_00100000#16 = .trapGetc ∧ decodeWord params 0b1111_0000_00100001#16 = .trapOut ∧
    decodeWord params 0b1111_0000_00100010#16 = .trapPuts ∧ decodeWord params 0b1111_0000_00100011#16 = .trapIn ∧
    decodeWord params 0b1111_0000_00100100#16 = .trapPutsp ∧ decodeWord params 0b1111_1111_00100101#16 = .trapHalt ∧
    decodeWord params 0b1111_0000_00100110#16 = .trap 0x26#8 := by decide
theorem test_decode_undefined :
    decodeWord params 0b1000_000000000000#16 = .undef8 0#12 ∧ decodeWord params 0b1101_111111111111#16 = .undefD 0xFFF#12 := by decide
/-- R93: the source's printed ADD string, read as bits, is another instruction (90_conflicts C1). -/
theorem test_decode_printed_add : decodeWord params 0x13E8#16 = .addImm 1#3 7#3 8#5 := by decide
theorem test_encode_words :
    encode params (.addReg 1#3 2#3 3#3) = 0x1283#16 ∧ encode params (.br 0b010#3 0b111111110#9) = 0x05FE#16 ∧
    encode params (.jsrr 7#3) = 0x41C0#16 ∧ encode params .trapHalt = 0xF025#16 := by decide
theorem test_decode_table_word : decodeTableWord 16 0xF025 = some .trapHalt ∧ decodeTableWord 16 0 = some (.br 0#3 0#9) := by
  decide

/-! Operate (95 B1) -/

/-- B1 row 1. -/
theorem test_add : after (exec (.addReg 1#3 2#3 3#3) (labWith [(2, 5), (3, 0xFFFE)] [] [] []))
    (fun t => (t.reg 1#3, t.cond)) = some (0x0003#16, 0x0001#16) := by decide
/-- B1 row 3: signed overflow is not reported. -/
theorem test_add_overflow : after (exec (.addReg 0#3 0#3 1#3) (labWith [(0, 0x7FFF), (1, 1)] [] [] []))
    (fun t => (t.reg 0#3, t.cond)) = some (0x8000#16, 0x0004#16) := by decide
/-- B1 row 7. -/
theorem test_add_immediate : after (exec (.addImm 1#3 7#3 0x1D#5) (labWith [(7, 10)] [] [] []))
    (fun t => (t.reg 1#3, t.cond)) = some (0x0007#16, 0x0001#16) := by decide
/-- B1 row 9: wraps to zero. -/
theorem test_add_immediate_wraps : after (exec (.addImm 2#3 2#3 0x0F#5) (labWith [(2, 0xFFF1)] [] [] []))
    (fun t => (t.reg 2#3, t.cond)) = some (0x0000#16, 0x0002#16) := by decide
/-- B1 row 14. -/
theorem test_and : after (exec (.andReg 4#3 5#3 6#3) (labWith [(5, 0xF0F0), (6, 0xFF00)] [] [] []))
    (fun t => (t.reg 4#3, t.cond)) = some (0xF000#16, 0x0004#16) := by decide
/-- B1 row 16: the immediate is sign-extended. -/
theorem test_and_immediate : after (exec (.andImm 2#3 3#3 0x10#5) (labWith [(3, 0xABCD)] [] [] []))
    (fun t => (t.reg 2#3, t.cond)) = some (0xABC0#16, 0x0004#16) := by decide
/-- B1 row 22: COND from the written value. -/
theorem test_not : after (exec (.notReg 0#3 0#3) (labWith [(0, 0xFFFF)] [] [] []))
    (fun t => (t.reg 0#3, t.cond)) = some (0x0000#16, 0x0002#16) := by decide

/-! Control (95 B2) -/

/-- B2 rows 1, 4, 5 and the mask table. -/
theorem test_br :
    after (exec (.br 7#3 0x100#9) { lab with pc := 0x0010#16 }) (fun t => t.pc) = some 0xFF10#16 ∧
    after (exec (.br 2#3 0x1FE#9) { lab with pc := 0x3006#16 }) (fun t => t.pc) = some 0x3004#16 ∧
    after (exec (.br 2#3 0x1FE#9) { lab with pc := 0x3006#16, cond := 1#16 }) (fun t => t.pc) = some 0x3006#16 ∧
    after (exec (.br 3#3 5#9) { lab with cond := 4#16 }) (fun t => t.pc) = some 0x3001#16 := by decide
/-- B2 row 6. -/
theorem test_jmp : after (exec (.jmp 7#3) (labWith [(7, 0x3003)] [] [] []))
    (fun t => (t.pc, t.reg 7#3)) = some (0x3003#16, 0x3003#16) := by decide
/-- B2 row 9. -/
theorem test_jsr : after (exec (.jsr 0x400#11) lab) (fun t => (t.reg 7#3, t.pc, t.cond)) =
    some (0x3001#16, 0x2C01#16, 0x0002#16) := by decide
/-- B2 rows 12 and 13. -/
theorem test_jsrr : after (exec (.jsrr 2#3) (labWith [(2, 0x4000)] [] [] [])) (fun t => (t.reg 7#3, t.pc)) =
      some (0x3001#16, 0x4000#16) ∧
    after (exec (.jsrr 7#3) (labWith [(7, 0x5000)] [] [] [])) (fun t => (t.reg 7#3, t.pc)) =
      some (0x3001#16, 0x3001#16) := by decide

/-! Loads (95 B3) -/

/-- B3 row 1. -/
theorem test_ld : after (exec (.ld 2#3 2#9) (labWith [] [(0x3003, 0x1234)] [] []))
    (fun t => (t.reg 2#3, t.cond)) = some (0x1234#16, 0x0001#16) := by decide
/-- B3 rows 5 and 6: a Ready and a NotReady poll. -/
theorem test_ld_polls :
    after (exec (.ld 1#3 0#9) { labWith [] [] [0x51] [true] with pc := 0xFE00#16 })
      (fun t => (t.reg 1#3, t.mem, t.inp)) =
        some (0x8000#16, [(0xFE00, 0x8000#16), (0xFE02, 0x0051#16)], []) ∧
    after (exec (.ld 1#3 0#9) { labWith [] [(0xFE00, 0x1234), (0xFE02, 0x55)] [0x51] [false] with pc := 0xFE00#16 })
      (fun t => (t.reg 1#3, t.mem, t.inp)) = some (0x0000#16, [(0xFE02, 0x0055#16)], [0x51#8]) := by
  decide
/-- B3 row 8. -/
theorem test_ldi : after (exec (.ldi 7#3 2#9) { labWith [] [(3, 10), (10, 100)] [] [] with pc := 0x0001#16 })
    (fun t => (t.reg 7#3, t.cond)) = some (0x0064#16, 0x0001#16) := by decide
/-- B3 row 10: the pointer cell is the keyboard status. -/
theorem test_ldi_polls :
    after (exec (.ldi 0#3 0#9) { labWith [] [(0x8000, 0xAAAA), (0, 0x0BBB)] [0x7A] [true] with pc := 0xFE00#16 })
      (fun t => (t.reg 0#3, t.cond, t.mem.read 0xFE02#16)) = some (0xAAAA#16, 4#16, 0x007A#16) := by decide
/-- B3 rows 13 and 15: DR = BaseR, and the sum wraps. -/
theorem test_ldr : after (exec (.ldr 1#3 1#3 0#6) (labWith [(1, 0x4000)] [(0x4000, 0x4002)] [] []))
      (fun t => t.reg 1#3) = some 0x4002#16 ∧
    after (exec (.ldr 0#3 1#3 31#6) (labWith [(1, 0xFFF0)] [(0x000F, 0x8000)] [] []))
      (fun t => (t.reg 0#3, t.cond)) = some (0x8000#16, 4#16) := by decide
/-- B3 rows 18 and 20: flags from the address; no poll at the keyboard status. -/
theorem test_lea : after (exec (.lea 0#3 0x1FF#9) { lab with pc := 0x8001#16 })
      (fun t => (t.reg 0#3, t.cond)) = some (0x8000#16, 4#16) ∧
    after (exec (.lea 0#3 0#9) { labWith [] [] [0x6B] [true] with pc := 0xFE00#16 })
      (fun t => (t.reg 0#3, t.mem, t.inp)) = some (0xFE00#16, [], [0x6B#8]) := by decide

/-! Stores (95 B4) -/

/-- B4 rows 1 and 3: a store to the keyboard status is plain. -/
theorem test_st : after (exec (.st 3#3 4#9) { labWith [(3, 0xAA)] [] [] [] with pc := 0x3002#16 })
      (fun t => t.mem) = some [(0x3006, 0x00AA#16)] ∧
    after (exec (.st 0#3 0#9) { labWith [(0, 0x1234)] [] [0x6B] [true] with pc := 0xFE00#16 })
      (fun t => (t.mem, t.inp)) = some ([(0xFE00, 0x1234#16)], [0x6B#8]) := by decide
/-- B4 rows 4 and 6. -/
theorem test_sti : after (exec (.sti 1#3 1#9) (labWith [(1, 0x42)] [(0x3002, 0x4000)] [] []))
      (fun t => t.mem) = some [(0x3002, 0x4000#16), (0x4000, 0x0042#16)] ∧
    after (exec (.sti 1#3 0#9) { labWith [(1, 0x42)] [] [0x6B] [true] with pc := 0xFE00#16 })
      (fun t => t.mem) = some [(0x8000, 0x0042#16), (0xFE00, 0x8000#16), (0xFE02, 0x006B#16)] := by decide
/-- B4 row 8: wraps; storing zero leaves nothing listed. -/
theorem test_str : after (exec (.str 0#3 6#3 1#6) (labWith [(0, 0x1111), (6, 0xFFFF)] [] [] []))
      (fun t => t.mem) = some [(0, 0x1111#16)] ∧
    after (exec (.str 0#3 6#3 1#6) (labWith [(6, 0xFFFF)] [(0, 7)] [] [])) (fun t => t.mem) = some [] := by decide

/-! TRAP (95 B5) -/

/-- B5 rows 1, 2 and 3. -/
theorem test_getc : after (exec .trapGetc { labWith [] [] [0x61] [] with cond := 4#16 })
      (fun t => (t.reg 0#3, t.inp, t.cond, t.out)) = some (0x0061#16, [], 4#16, []) ∧
    after (exec .trapGetc { lab with supply := .ended }) (fun t => t.reg 0#3) = some 0xFFFF#16 ∧
    after (exec .trapGetc (labWith [] [] [0xFF] [])) (fun t => t.reg 0#3) = some 0x00FF#16 := by decide
/-- R116: with nothing to read the step holds, pc and registers as they were. -/
theorem test_getc_holds : after (exec .trapGetc lab) (fun t => (t.hold, t.pc, t.reg 0#3, t.run)) =
    some (some .getc, 0x3001#16, 0#16, .running) := by decide
/-- B5 row 4. -/
theorem test_out : after (exec .trapOut (labWith [(0, 0x1241)] [] [] [])) (fun t => t.out) = some [0x41#8] := by decide
/-- B5 rows 6 and 8. -/
theorem test_puts :
    after (exec .trapPuts (labWith [(0, 0x3100)] [(0x3100, 0x4100), (0x3101, 0x1242)] [] []))
      (fun t => (t.out, t.reg 0#3, t.hold)) = some ([0x00#8, 0x42#8], 0x3100#16, none) ∧
    after (exec .trapPuts (labWith [(0, 0xFFFF)] [(0xFFFF, 0x41), (0, 0x42)] [] []))
      (fun t => t.out) = some [0x41#8, 0x42#8] := by decide
/-- B5 row 10. -/
theorem test_in : after (exec .trapIn { labWith [] [] [0x78] [] with cond := 4#16 })
    (fun t => (t.out.length, t.out.getLast?, t.reg 0#3, t.cond)) = some (20, some 0x78#8, 0x0078#16, 4#16) := by decide
/-- B5 row 13. -/
theorem test_putsp :
    after (exec .trapPutsp (labWith [(0, 0x3100)] [(0x3100, 0x4200), (0x3101, 0x4241)] [] []))
      (fun t => t.out) = some [0x00#8, 0x42#8, 0x41#8, 0x42#8] := by decide
/-- B5 row 14. -/
theorem test_halt : after (exec .trapHalt { lab with pc := 0x3008#16 }) (fun t => (t.out, t.run, t.pc)) =
    some ([0x48#8, 0x41#8, 0x4C#8, 0x54#8, 0x0A#8], .halted, 0x3008#16) := by decide
/-- B5 row 17. -/
theorem test_trap_other : after (exec (.trap 0x26#8) lab) (fun t => t) = some lab := by decide

/-! Undefined opcodes and the step (95 B6) -/

/-- B6 row 2. -/
theorem test_undef8 : after (exec (.undef8 0xFFF#12) lab) (fun t => t) = some { lab with run := .aborted } := by decide
/-- B6 rows 3 and 4: the increment happened. -/
theorem test_undefD : after (exec (.undefD 0#12) lab) (fun t => t.run) = some .aborted ∧
    after (step { labWith [] [(0x3000, 0xD123)] [] [] with pc := 0x3000#16 }) (fun t => (t.pc, t.run)) =
      some (0x3001#16, .aborted) := by decide
/-- B6 rows 5 and 6: a fetch at the keyboard status. -/
theorem test_step_at_kbsr :
    after (step { labWith [] [(0xFE00, 0x1021)] [0x6B] [true] with pc := 0xFE00#16 })
      (fun t => (t.run, t.mem, t.inp)) =
        some (.aborted, [(0xFE00, 0x8000#16), (0xFE02, 0x006B#16)], []) ∧
    after (step { labWith [] [(0xFE00, 0x1021)] [] [] with pc := 0xFE00#16 })
      (fun t => (t.pc, t.mem)) = some (0xFE01#16, []) := by decide
/-- B6 row 7. -/
theorem test_step_wraps : after (step { labWith [] [(0xFFFF, 0x1021)] [] [] with pc := 0xFFFF#16 })
    (fun t => (t.reg 0#3, t.cond, t.pc)) = some (0x0001#16, 0x0001#16, 0x0000#16) := by decide
/-- A7. -/
theorem test_launch_bytes :
    (State.launchBytes [0x30, 0x00, 0x12, 0x34, 0xAB, 0xCD]).map State.mem =
      some [(0x3000, 0x1234#16), (0x3001, 0xABCD#16)] := by decide
theorem test_first_word_after_reset :
    after (step (State.reset.withFetchWord 16 0xF025)) (fun t => (t.run, t.pc)) = some (.halted, 0x3001#16) ∧
    after (step (State.reset.withFetchWord 16 0xF020)) (fun _ => true) = some true := by decide

/-! Witnesses: each names the statement whose hypotheses it meets -/

theorem witness_SignExtensionCopiesSignBit : (1 ≤ 1 ∧ 1 ≤ 16 ∧ sext 1 0x0001#16 = 0xFFFF#16) ∧
    (1 ≤ 16 ∧ 16 ≤ 16 ∧ sext 16 0x8000#16 = 0x8000#16) ∧ sext 5 0x13FD#16 = 0xFFFD#16 ∧ sext 9 0x0FF#16 = 0x00FF#16 := by
  decide
theorem witness_DecodeInvertsEncode : params.Legal ∧ (Instr.trap 0xFF#8).wf params = true ∧ encode params (.trap 0xFF#8) = 0xF0FF#16 := by decide
theorem witness_IgnoredBitsAreIgnored :
    0x1299#16 &&& 0xF020#16 = 0x1000#16 ∧ 0x53C7#16 &&& 0xF020#16 = 0x5000#16 ∧ 0x94FF#16 &&& 0xF000#16 = 0x9000#16 ∧
    0xCEBF#16 &&& 0xF000#16 = 0xC000#16 ∧ 0x47FF#16 &&& 0xF800#16 = 0x4000#16 ∧ 0xFF25#16 &&& 0xF000#16 = 0xF000#16 ∧
    decodeWord params 0x1299#16 = decodeWord params 0x1281#16 ∧ decodeWord params 0xCEBF#16 = decodeWord params 0xC080#16 := by decide
theorem witness_StepRunsTheDecodedInstruction :
    lab.run = .running ∧ lab.hold = none ∧ lab.pc ≠ params.kbsr ∧ decodeWord params (lab.mem.read lab.pc) = .br 0#3 0#9 ∧
    decodeWord params (({ lab with pc := 0xFE00#16 } : State).memRead params 0xFE00#16).1 = .br 0#3 0#9 := by decide
theorem witness_StoppedMachineTakesNoStep :
    ({ lab with run := .halted } : State).run = .halted ∧ ({ lab with run := .aborted } : State).run = .aborted ∧
    ({ lab with run := .halted } : State).run ≠ .running := by decide
theorem witness_EveryInstructionAnswersANextState : State.reset.run = .running := by decide
theorem witness_LaunchPlacesTheImage :
    (0x3000#16).toNat + [0x1021#16, 0xF025#16].length ≤ 65536 ∧ (0xFFFF#16).toNat + [0xF025#16].length ≤ 65536 ∧
    (State.launch 0xFFFF#16 [0xF025#16]).mem = [(0xFFFF, 0xF025#16)] ∧
    (0xFFFE#16).toNat < (0xFFFF#16).toNat ∧ (0x3000#16).toNat + [0x1021#16, 0xF025#16].length ≤ (0x3002#16).toNat := by
  decide
theorem witness_StepKeepsTheInvariant : StateInv params lab ∧ after (step lab) (fun t => t.pc) = some 0x3002#16 :=
  ⟨⟨State.reset_mem_wf, by unfold CondIsFlag; decide, by decide, fun h => absurd h (by decide)⟩, by decide⟩
theorem witness_SetCCClassifiesTheWrittenValue :
    ((labWith [] [] [] []).reg 0#3).toNat = 0 ∧ 0x8000 ≤ ((labWith [(1, 0x8000)] [] [] []).reg 1#3).toNat ∧
    0 < ((labWith [(1, 0x7FFF)] [] [] []).reg 1#3).toNat ∧ ((labWith [(1, 0x7FFF)] [] [] []).reg 1#3).toNat < 0x8000 ∧
    0 < ((labWith [(1, 1)] [] [] []).reg 1#3).toNat := by decide
theorem witness_CondIsWrittenBySevenAndReadByBranch :
    isBranch (.ld 2#3 2#9) = false ∧ flagDest (.ld 2#3 2#9) = some 2#3 ∧ flagDest (.jsr 0#11) = none ∧
    (after (exec (.ld 2#3 2#9) lab) (fun t => t.cond)).isSome = true ∧
    (after (exec (.jsr 0#11) lab) (fun t => t.cond)).isSome = true := by decide
theorem witness_PcIsWrittenByTransfersOnly :
    isTransfer (.lea 0#3 5#9) = false ∧ (after (exec (.lea 0#3 5#9) lab) (fun t => t.pc)).isSome = true := by decide
theorem witness_operate_words :
    0x1283#16 &&& 0xF020#16 = 0x1000#16 ∧ 0x13FD#16 &&& 0xF020#16 = 0x1020#16 ∧ 0x5946#16 &&& 0xF020#16 = 0x5000#16 ∧
    0x54EF#16 &&& 0xF020#16 = 0x5020#16 ∧ 0x94FF#16 &&& 0xF000#16 = 0x9000#16 := by decide
theorem witness_SubtractionIsComposed : (0#3 : Reg) ≠ 7#3 := by decide
theorem witness_BranchForm :
    0x0E05#16 &&& 0xF000#16 = 0x0000#16 ∧ (0x0001#16 ∈ params.flags) ∧ (0x0002#16 ∈ params.flags) ∧
    (0x0004#16 ∈ params.flags) ∧ lab.cond = 0x0002#16 := by decide
theorem witness_control_words :
    0xC1C0#16 &&& 0xF000#16 = 0xC000#16 ∧ 0x4804#16 &&& 0xF800#16 = 0x4800#16 ∧ 0x41C0#16 &&& 0xF800#16 = 0x4000#16 := by
  decide
/-- Loads and stores: the words, and an effective address at and one away from the keyboard status. -/
theorem witness_load_store_words :
    0x2402#16 &&& 0xF000#16 = 0x2000#16 ∧ 0xAE02#16 &&& 0xF000#16 = 0xA000#16 ∧ 0x697F#16 &&& 0xF000#16 = 0x6000#16 ∧
    0xE005#16 &&& 0xF000#16 = 0xE000#16 ∧ 0x3604#16 &&& 0xF000#16 = 0x3000#16 ∧ 0xB201#16 &&& 0xF000#16 = 0xB000#16 ∧
    0x7183#16 &&& 0xF000#16 = 0x7000#16 ∧ 0xFE00#16 + sextField 0#9 = params.kbsr ∧
    0xFE00#16 + sextField 1#9 ≠ params.kbsr ∧ lab.memRead params 0x3001#16 = (lab.mem.read 0x3001#16, lab) := by decide
/-- Stores onto the next instruction: ST at 0xFDFE, the last pc whose next word is below the keyboard status, and STI and
STR at 0x3000. -/
def labStore : State := { labWith [(3, 0x1261)] [(0xFDFE, 0x3600)] [] [] with pc := 0xFDFE#16 }
def labSti : State := { labWith [(3, 0x1261)] [(0x3000, 0xB601), (0x3002, 0x3001)] [] [] with pc := 0x3000#16 }
def labStr : State := { labWith [(3, 0x1261), (6, 0x3000)] [(0x3000, 0x7781)] [] [] with pc := 0x3000#16 }
theorem witness_StoreIsSeenByTheNextFetch :
    (labStore.run = .running ∧ labStore.hold = none ∧ labStore.pc + 1#16 ≠ params.kbsr ∧
      decodeWord params (labStore.fetch params).1 = .st 3#3 0#9 ∧ storeSource (.st 3#3 0#9) = some 3#3 ∧
      storeAddress params (.st 3#3 0#9) (labStore.fetch params).2 = some (labStore.pc + 1#16)) ∧
    (decodeWord params (labSti.fetch params).1 = .sti 3#3 1#9 ∧
      storeAddress params (.sti 3#3 1#9) (labSti.fetch params).2 = some (labSti.pc + 1#16)) ∧
    decodeWord params (labStr.fetch params).1 = .str 3#3 6#3 1#6 ∧
      storeAddress params (.str 3#3 6#3 1#6) (labStr.fetch params).2 = some (labStr.pc + 1#16) := by decide
theorem witness_OnlyTheStatusReadPolls :
    params.Legal ∧ (0xFE02#16 : Word) ≠ params.kbsr ∧ ((labWith [] [] [0x51] [true]).kbdPoll params).1 = .ready 0x0051#16 ∧
    ((labWith [] [] [0x51] [false]).kbdPoll params).1 = .notReady := by decide
theorem witness_PollTakesFromTheFrontOrAnswersNotReady :
    ((labWith [] [] [0x51] [true]).inp = [0x51#8] ∧ (labWith [] [] [0x51] [true]).pollDraw = true) ∧
    ((labWith [] [] [0x51] [false]).inp = [0x51#8] ∧ (labWith [] [] [0x51] [false]).pollDraw = false) ∧
    (({ lab with supply := .ended } : State).inp = [] ∧ ({ lab with supply := .ended } : State).supply = .ended) ∧
    (lab.inp = [] ∧ lab.supply = .withheld) ∧
    (({ lab with supply := .ended, oracle := [true] } : State).kbdPoll params).1 = .ready 0xFFFF#16 ∧
    (State.reset.inp = [] ∧ State.reset.supply = .unfixed) ∧ (lab.kbdPoll params).1 = .notReady ∧
    ((labWith [] [] [0x51] [false]).kbdPoll params).1 = .notReady ∧
    ((labWith [] [] [0x51] [false]).kbdPoll params).2.inp = [0x51#8] := by decide
theorem witness_BlockingReadTakesTheFront :
    (labWith [] [] [0xFF] []).inp = [0xFF#8] ∧ lab.inp = [] ∧ lab.supply = .withheld ∧ (lab.kbdGet params).1 = none ∧
    ({ lab with supply := .ended } : State).supply = .ended ∧ State.reset.inp = [] ∧ State.reset.supply = .unfixed ∧
    ((labWith [] [] [0xFF] []).kbdGet params).1 = some 0x00FF#16 ∧
    (({ lab with supply := .ended } : State).kbdGet params).1 = some 0xFFFF#16 := by decide
theorem witness_FetchAtTheStatusAddress :
    (({ labWith [] [] [0x51] [true] with pc := 0xFE00#16 } : State).kbdPoll params).1 = .ready 0x0051#16 ∧
    (({ lab with pc := 0xFE00#16 } : State).kbdPoll params).1 = .notReady ∧
    ({ lab with pc := 0xFE00#16 } : State).pc = params.kbsr ∧ lab.run = .running ∧ lab.hold = none := by decide
theorem witness_trap_words :
    0xF020#16 &&& 0xF0FF#16 = 0xF020#16 ∧ 0xF121#16 &&& 0xF0FF#16 = 0xF021#16 ∧ 0xF022#16 &&& 0xF0FF#16 = 0xF022#16 ∧
    0xF023#16 &&& 0xF0FF#16 = 0xF023#16 ∧ 0xF024#16 &&& 0xF0FF#16 = 0xF024#16 ∧ 0xFF25#16 &&& 0xF0FF#16 = 0xF025#16 ∧
    0xF01F#16 &&& 0xF000#16 = 0xF000#16 := by decide
/-- GETC and IN: a byte, the stream's end, nothing; and what the blocking read answers in the last two. -/
theorem witness_GetcForm_InForm :
    (labWith [] [] [0x61, 0x62] []).inp = [0x61#8, 0x62#8] ∧
    (({ lab with supply := .ended } : State).inp = [] ∧ ({ lab with supply := .ended } : State).supply = .ended) ∧
    (lab.inp = [] ∧ lab.supply = .withheld) ∧ (lab.kbdGet params).1 = none ∧
    (({ lab with supply := .ended } : State).kbdGet params).1 = some 0xFFFF#16 := by decide
/-- A string of one word across the top of memory, and the empty string. -/
def labString : State := labWith [(0, 0xFFFF)] [(0xFFFF, 0x4241)] [] []
theorem witness_PutsForm_PutspForm :
    ([0x4241#16].length < 65536 ∧ labString.mem.read (labString.reg 0#3 + 0#16) = 0x4241#16 ∧ 0x4241#16 ≠ 0x0000#16 ∧
      labString.mem.read (labString.reg 0#3 + 1#16) = 0x0000#16) ∧
    (([] : List Word).length < 65536 ∧ lab.mem.read (lab.reg 0#3 + 0#16) = 0x0000#16) := by decide

/-- `n` cells of value 1 from address `a` up. -/
def onesFrom (a : Nat) : Nat → Memory
  | 0 => []
  | n + 1 => (a, 1#16) :: onesFrom (a + 1) n
theorem onesFrom_lookup (n a k : Nat) (h1 : a ≤ k) (h2 : k < a + n) : Memory.lookup (onesFrom a n) k = 1#16 := by
  induction n generalizing a with
  | zero => omega
  | succ n ih =>
    by_cases h : a = k
    · simp [onesFrom, Memory.lookup, h]
    · simp only [onesFrom, Memory.lookup, h, if_false]
      exact ih (a + 1) (by omega) (by omega)
/-- Both clauses of the statement: a memory with a zero word, and one with none, running and held. -/
def labFull : State := { lab with mem := onesFrom 0 65536, hold := some .puts }
theorem witness_StringRoutinesEndOnlyAtAZeroWord :
    ¬ NoZeroWord lab.mem ∧ NoZeroWord labFull.mem ∧ labFull.run = .running ∧ labFull.hold = some .puts ∧
    ({ labFull with hold := some .putsp } : State).hold = some .putsp := by
  refine ⟨fun h => h 0#16 (by decide), fun a h => ?_, rfl, rfl, rfl⟩
  have e := onesFrom_lookup 65536 0 a.toNat (Nat.zero_le _) (by have := a.isLt; omega)
  have : (1#16 : Word) = 0x0000#16 := e.symm.trans h
  exact absurd this (by decide)
theorem witness_UnknownVectorIsNoOperation :
    (0xF01F#16).extractLsb' 0 8 ∉ params.trapVectors ∧ (0x1F#8 : Byte) ∉ params.trapVectors ∧
    (0x26#8 : Byte) ∉ params.trapVectors ∧
    (labWith [] [(0x3001, 0xF026)] [] []).pc ≠ params.kbsr ∧
    decodeWord params ((labWith [] [(0x3001, 0xF026)] [] []).mem.read 0x3001#16) = .trap 0x26#8 := by decide
theorem witness_TrapDispatchesByVector :
    0xF020#16 &&& 0xF000#16 = 0xF000#16 ∧ (0xF020#16).extractLsb' 0 8 = params.tvGetc := by decide
theorem witness_TrapFrame :
    (Instr.trapPuts.wf params = true ∧ isTrap .trapPuts = true ∧ (after (exec .trapPuts lab) (fun t => t.pc)).isSome = true) ∧
    ((Instr.trap 0x26#8).wf params = true ∧ isTrap (.trap 0x26#8) = true) ∧ Instr.trapPuts ≠ .trapGetc ∧ Instr.trapPuts ≠ .trapIn := by
  decide
theorem witness_HeldReadWaitsThenCompletes :
    (({ lab with hold := some .getc } : State).run = .running ∧ ({ lab with hold := some .getc } : State).inp = [] ∧
      ({ lab with hold := some .getc } : State).supply = .withheld) ∧
    ({ labWith [] [] [0x78] [] with hold := some .input } : State).inp = [0x78#8] ∧
    after (step { labWith [] [] [0x78] [] with hold := some .input }) (fun t => (t.out, t.hold, t.reg 0#3)) =
      some ([0x78#8], none, 0x0078#16) ∧
    ({ lab with hold := some .input, supply := .ended } : State).supply = .ended ∧
    (({ lab with hold := some .getc } : State).kbdGet params).1 = none ∧
    (({ labWith [] [] [0x78] [] with hold := some .input } : State).kbdGet params).1 = some 0x0078#16 := by decide
theorem witness_UndefinedOpcodeAborts :
    0x8000#16 &&& 0xF000#16 = 0x8000#16 ∧ 0xDFFF#16 &&& 0xF000#16 = 0xD000#16 ∧
    (labWith [] [(0x3001, 0xD123)] [] []).pc ≠ params.kbsr ∧
    isUndefined (decodeWord params ((labWith [] [(0x3001, 0xD123)] [] []).mem.read 0x3001#16)) = true := by decide
/-- A step that halts, one that aborts and one that does neither: statements about every step are about some. -/
theorem witness_RunChangesByHaltAndDecodeErrorOnly :
    after (step (labWith [] [(0x3001, 0xF025)] [] [])) (fun t => t.run) = some .halted ∧
    after (step (labWith [] [(0x3001, 0x8000)] [] [])) (fun t => t.run) = some .aborted ∧
    after (step lab) (fun t => t.run) = some .running := by decide
/-- A step of OUT, one that goes on with a held IN, and one that goes on with a held GETC, which emits nothing. -/
theorem witness_OutputOnlyGrows :
    after (step { labWith [] [] [0x78] [] with hold := some .input }) (fun t => t.out) = some [0x78#8] ∧
    after (step { labWith [] [] [0x78] [] with hold := some .getc }) (fun t => t.out) = some [] ∧
    after (step (labWith [(0, 0x41)] [(0x3001, 0xF021)] [] [])) (fun t => t.out) = some [0x41#8] ∧
    isEmitter (decodeWord params ((labWith [(0, 0x41)] [(0x3001, 0xF021)] [] []).fetch params).1) = true := by decide
/-- A step with a keyboard event and one without, of a fixed stream, and a state whose stream is not fixed. -/
theorem witness_InputIsConsumedFromTheFront :
    after (step State.reset) (fun t => (t.inp, t.supply, t.draws)) = some ([], .unfixed, 0) ∧
    after (step (labWith [] [(0x3001, 0xF020)] [0x61, 0x62] [])) (fun t => t.draws) = some 1 ∧
    (labWith [] [(0x3001, 0xF020)] [0x61, 0x62] []).supply ≠ .unfixed ∧
    after (step (labWith [] [(0x3001, 0xF020)] [0x61, 0x62] [])) (fun t => t.inp) = some [0x62#8] := by decide
theorem witness_MemoryChangesByStoresOnly :
    after (step (labWith [(3, 0xAA)] [(0x3001, 0x3604)] [] [])) (fun t => t.mem.read 0x3006#16) = some 0x00AA#16 ∧
    (labWith [(3, 0xAA)] [(0x3001, 0x3604)] [] []).mem.read 0x3006#16 ≠ 0x00AA#16 ∧
    (0x3006#16 : Word) ≠ params.kbsr ∧ (0x3006#16 : Word) ≠ params.kbdr := by decide
theorem witness_ZeroWordIsNoOperation :
    lab.run = .running ∧ lab.hold = none ∧ lab.pc ≠ params.kbsr ∧ lab.mem.read lab.pc = 0x0000#16 := by decide

theorem witness_StepRunsTheDecodedInstructionAtAnyParameters :
    lab.run = .running ∧ lab.hold = none ∧ ({ lab with run := .halted } : State).run = .halted ∧
    ({ lab with run := .aborted } : State).run = .aborted := by decide
theorem witness_StepKeepsTheInvariantAtAnyParameters :
    otherParams.Legal ∧ StateInv otherParams (State.resetWith otherParams) ∧
    after (stepWith otherParams (State.resetWith otherParams)) (fun t => t.pc) = some 0x0201#16 :=
  ⟨by decide, ⟨State.resetWith_mem_wf _, by unfold CondIsFlag; decide, by decide, fun h => absurd h (by decide)⟩, by decide⟩
/-- `params` with the numbers of ADD and AND, and the vectors of GETC and OUT, exchanged. -/
def renumbered : Config.Params :=
  { params with opcAdd := 0b0101#4, opcAnd := 0b0001#4, tvGetc := 0x21#8, tvOut := 0x20#8 }
theorem witness_RenumberingChangesEncodingsOnly :
    params.Legal ∧ renumbered.Legal ∧
    (params.kbsr = renumbered.kbsr ∧ params.kbdr = renumbered.kbdr ∧ params.flags = renumbered.flags ∧
      params.eosValue = renumbered.eosValue ∧ params.inPrompt = renumbered.inPrompt ∧
      params.haltNotice = renumbered.haltNotice) ∧
    (Instr.trap 0x26#8).wf params = true ∧ (Instr.trap 0x26#8).wf renumbered = true ∧
    encode params (.addReg 1#3 2#3 3#3) = 0x1283#16 ∧ encode renumbered (.addReg 1#3 2#3 3#3) = 0x5283#16 ∧
    encode renumbered .trapGetc = 0xF021#16 := by decide

end Sys2Proof.Machine
end

section
/-! The decoder as the encoder's inverse, the sign extension (spec/00_scope.md R7), and what a step does to the output
(R14). -/

namespace Sys2Proof

/-! The decoder inverts the encoder, and answers well-formed instructions only -/

/-- The opcode whose number an instruction is encoded with, if any (spec/30_encoding.md R85, R86). -/
def Instr.opcode : Instr → Option Opcode
  | .addReg _ _ _ | .addImm _ _ _ => some .add
  | .andReg _ _ _ | .andImm _ _ _ => some .and
  | .notReg _ _ => some .not
  | .br _ _ => some .br
  | .jmp _ => some .jmp
  | .jsr _ | .jsrr _ => some .jsr
  | .ld _ _ => some .ld
  | .ldi _ _ => some .ldi
  | .ldr _ _ _ => some .ldr
  | .lea _ _ => some .lea
  | .st _ _ => some .st
  | .sti _ _ => some .sti
  | .str _ _ _ => some .str
  | .trap _ | .trapGetc | .trapOut | .trapPuts | .trapIn | .trapPutsp | .trapHalt => some .trap
  | .undef8 _ | .undefD _ => none

/-- Bits [15:12] of an encoding name the instruction's opcode. -/
theorem opcodeOf_encode (p : Config.Params) (h : (Opcode.all.map p.opcodeNumber).Nodup) (i : Instr) :
    opcodeOf p ((encode p i).extractLsb' 12 4) = i.opcode := by
  have op := opcodeOf_opcodeNumber p h
  cases i <;> simp only [encode, word6_op, word9_op, word12_op, Instr.opcode]
  case addReg | addImm => exact op .add
  case andReg | andImm => exact op .and
  case notReg => exact op .not
  case br => exact op .br
  case jmp => exact op .jmp
  case jsr | jsrr => exact op .jsr
  case ld => exact op .ld
  case ldi => exact op .ldi
  case ldr => exact op .ldr
  case lea => exact op .lea
  case st => exact op .st
  case sti => exact op .sti
  case str => exact op .str
  case undef8 => exact opcodeOf_undefinedLow p h
  case undefD => exact opcodeOf_undefinedHigh p h
  all_goals exact op .trap

/-- The vector field of a TRAP word (format TRAP). -/
theorem word12_vect8 (op : BitVec 4) (v : Byte) : (word12 op (low12Trap v)).extractLsb' 0 8 = v := by
  rw [word12_low op _ 0 8 (by decide), low12Trap_vect8]

/-- A vector without a routine stays a `trap` (spec/45_trap.md R168). -/
theorem decodeTrap_of_not_mem (p : Config.Params) (v : Byte) (h : v ∉ p.trapVectors) : decodeTrap p v = .trap v := by
  simp only [Config.Params.trapVectors, List.mem_cons, List.not_mem_nil, or_false, not_or] at h
  obtain ⟨h1, h2, h3, h4, h5, h6⟩ := h
  simp only [decodeTrap, h1, h2, h3, h4, h5, h6, if_false]

/-- Distinct vectors select each its own row (R94, spec/45_trap.md R161). -/
theorem decodeTrap_vectors (p : Config.Params) (h : p.trapVectors.Nodup) :
    decodeTrap p p.tvGetc = .trapGetc ∧ decodeTrap p p.tvOut = .trapOut ∧ decodeTrap p p.tvPuts = .trapPuts ∧
      decodeTrap p p.tvIn = .trapIn ∧ decodeTrap p p.tvPutsp = .trapPutsp ∧ decodeTrap p p.tvHalt = .trapHalt := by
  simp only [Config.Params.trapVectors, List.nodup_cons, List.mem_cons, List.not_mem_nil, or_false, not_or,
    ← ne_eq] at h
  obtain ⟨⟨h1, h2, h3, h4, h5⟩, ⟨h6, h7, h8, h9⟩, ⟨h10, h11, h12⟩, ⟨h13, h14⟩, h15, -⟩ := h
  simp [decodeTrap, h1.symm, h2.symm, h3.symm, h4.symm, h5.symm, h6.symm, h7.symm, h8.symm, h9.symm, h10.symm,
    h11.symm, h12.symm, h13.symm, h14.symm, h15.symm]

theorem Instr.wf_trap_iff (p : Config.Params) (v : Byte) : (Instr.trap v).wf p = true ↔ v ∉ p.trapVectors := by
  simp [Instr.wf]

/-- Decoding gives a well-formed instruction back from its encoding, at any legal parameters (R85, R92, R94). -/
theorem decodeWord_encode (p : Config.Params) (h : p.Legal) (i : Instr) (hi : i.wf p = true) :
    decodeWord p (encode p i) = i := by
  obtain ⟨hop, -, -, -, hv, -⟩ := h
  obtain ⟨v1, v2, v3, v4, v5, v6⟩ := decodeTrap_vectors p hv
  unfold decodeWord
  rw [opcodeOf_encode p hop i]
  cases i <;> simp only [Instr.opcode, encode]
  case addReg | andReg => simp [word6_hi, word6_mid, word6_low, low6Reg_bit5, low6Reg_sr2]
  case addImm | andImm => simp [word6_hi, word6_mid, word6_low, low6Imm_bit5, low6Imm_imm5]
  case notReg | jmp => simp [word6_hi, word6_mid]
  case ldr | str => simp [word6_hi, word6_mid, word6_low]
  case br | ld | ldi | lea | st | sti => simp [word9_hi, word9_low]
  case jsr => simp [word12_low, low12Jsr_bit11, low12Jsr_off11]
  case jsrr => simp [word6_bit11, word6_mid]
  case undef8 => simp [word12_op, word12_low]
  case undefD => simp [word12_op, word12_low, (undefinedNumbers_eq_pair p hop).2.symm]
  case trap v => rw [word12_vect8, decodeTrap_of_not_mem p v ((Instr.wf_trap_iff p v).mp hi)]
  all_goals rw [word12_vect8]; assumption

theorem decodeTrap_wf (p : Config.Params) (v : Byte) : (decodeTrap p v).wf p = true := by
  unfold decodeTrap
  split_ifs
  case neg => simp [Instr.wf, Config.Params.trapVectors, *]
  all_goals rfl

/-- Decoding any word gives a well-formed instruction (R92, R94). -/
theorem decodeWord_wf (p : Config.Params) (w : Word) : (decodeWord p w).wf p = true := by
  unfold decodeWord
  rcases opcodeOf p (w.extractLsb' 12 4) with - | o
  · dsimp only
    split <;> rfl
  · cases o
    case trap => exact decodeTrap_wf p _
    case add | and | jsr => dsimp only; split <;> rfl
    all_goals rfl

end Sys2Proof

namespace Sys2Proof.Machine

/-! Sign extension (spec/00_scope.md R7) -/

theorem sextField_getLsbD {n : Nat} (f : BitVec n) (k : Nat) (hk : k < 16) :
    (sextField f).getLsbD k = if k < n then f.getLsbD k else f.getLsbD (n - 1) := by
  rw [sextField, BitVec.getLsbD_signExtend, BitVec.msb_eq_getLsbD_last, decide_eq_true hk, Bool.true_and]

theorem sextField_toNat {n : Nat} (f : BitVec n) (hn : n ≤ 16) :
    (sextField f).toNat = if f.toNat < 2 ^ (n - 1) then f.toNat else f.toNat + 2 ^ 16 - 2 ^ n := by
  have hp : 2 ^ n ≤ 2 ^ 16 := Nat.pow_le_pow_right (by decide) hn
  have hf : f.toNat % 2 ^ 16 = f.toNat := Nat.mod_eq_of_lt (lt_of_lt_of_le f.isLt hp)
  rw [sextField, BitVec.toNat_signExtend, BitVec.toNat_setWidth, hf, BitVec.msb_eq_decide]
  by_cases h : f.toNat < 2 ^ (n - 1)
  · simp [h]
  · simp only [h, if_false, not_lt.mp h, decide_true, if_true]
    omega

/-- Settles O1: bit by bit and as a number, from the sign extension of the extracted field. -/
theorem signExtensionCopiesSignBit : Obligations.SignExtensionCopiesSignBit := by
  intro n v h1 hn
  refine ⟨fun k hk => ?_, fun k hk hk16 => ?_, ?_, fun f hf => by rw [hf, sext]⟩
  · rw [sext, sextField_getLsbD _ _ (by omega), if_pos hk]
    simp [hk]
  · have : n - 1 < n := by omega
    rw [sext, sextField_getLsbD _ _ hk16, if_neg (by omega)]
    simp [this]
  · rw [sext, sextField_toNat _ hn]
    simp only [BitVec.extractLsb'_toNat, Nat.shiftRight_zero]

/-! TRAP with a vector without a routine -/

/-- A vector outside the table changes nothing (spec/45_trap.md R168). -/
theorem trapRoutine_of_not_mem (p : Config.Params) (v : Byte) (s : State) (h : v ∉ p.trapVectors) :
    trapRoutine p v s = s := by
  simp only [Config.Params.trapVectors, List.mem_cons, List.not_mem_nil, or_false, not_or] at h
  obtain ⟨h1, h2, h3, h4, h5, h6⟩ := h
  simp only [trapRoutine, h1, h2, h3, h4, h5, h6, if_false]

theorem effect_trap (p : Config.Params) (v : Byte) (s : State) (h : (Instr.trap v).wf p = true) :
    effect p (.trap v) s = s :=
  trapRoutine_of_not_mem p v s ((Instr.wf_trap_iff p v).mp h)

/-! Output -/

/-- An instruction appends to the output, and nothing unless it is one that emits (spec/00_scope.md R14). -/
theorem effect_out (p : Config.Params) (i : Instr) (s : State) (hi : i.wf p = true) :
    ∃ bs : List Byte, (effect p i s).out = s.out ++ bs ∧ (bs ≠ [] → isEmitter i = true) := by
  have quiet : (effect p i s).out = s.out →
      ∃ bs : List Byte, (effect p i s).out = s.out ++ bs ∧ (bs ≠ [] → isEmitter i = true) :=
    fun h => ⟨[], by simpa using h, fun hb => absurd rfl hb⟩
  cases i
  case trapOut => exact ⟨[low8 (s.reg trapReg)], rfl, fun _ => rfl⟩
  case trapPuts | trapPutsp => exact ⟨_, rfl, fun _ => rfl⟩
  case trapHalt => exact ⟨p.haltNotice, rfl, fun _ => rfl⟩
  case trapIn =>
    obtain ⟨-, -, -, -, ⟨bs, h⟩, -⟩ := routineInRead_frame p (s.emit p.inPrompt)
    exact ⟨p.inPrompt ++ bs, by simpa [effect, routineIn] using h, fun _ => rfl⟩
  case trapGetc => obtain ⟨-, -, -, -, h, -⟩ := routineGetc_frame p s; exact quiet h
  case trap v => exact quiet (by rw [effect_trap p v s hi])
  case br => exact quiet (by simp only [effect]; split <;> rfl)
  all_goals exact quiet (by simp [effect, State.indirect, State.raiseDecodeError])

/-- A held routine tried again appends to the output; a held GETC appends nothing (spec/40_cycle.md R116). -/
theorem resumeHold_out (p : Config.Params) (h : Hold) (s : State) :
    ∃ bs : List Byte, (resumeHold p h s).out = s.out ++ bs ∧
      (bs ≠ [] → h = .input ∨ h = .puts ∨ h = .putsp) := by
  cases h
  case getc =>
    obtain ⟨-, -, -, -, h, -⟩ := routineGetc_frame p s
    exact ⟨[], by simpa [resumeHold] using h, fun hb => absurd rfl hb⟩
  case input =>
    obtain ⟨-, -, -, -, ⟨bs, h⟩, -⟩ := routineInRead_frame p s
    exact ⟨bs, h, fun _ => .inl rfl⟩
  case puts => exact ⟨_, rfl, fun _ => .inr (.inl rfl)⟩
  case putsp => exact ⟨_, rfl, fun _ => .inr (.inr rfl)⟩

@[simp] theorem State.fetch_out (p : Config.Params) (s : State) : (s.fetch p).2.out = s.out := by
  simp [State.fetch_eq]

/-- Settles O51, from what a held routine and what an instruction appends. -/
theorem outputOnlyGrows : Obligations.OutputOnlyGrows := by
  intro s t h
  obtain ⟨-, ⟨hd, hh, rfl⟩ | ⟨hh, rfl⟩⟩ := (step_next_iff s t).mp h
  · obtain ⟨bs, ho, hb⟩ := resumeHold_out params hd s
    exact ⟨bs, ho, fun hne => by rcases hb hne with rfl | rfl | rfl <;> simp [hh]⟩
  · obtain ⟨bs, ho, hb⟩ := effect_out params _ (s.fetch params).2 (decodeWord_wf params (s.fetch params).1)
    exact ⟨bs, by rw [ho, State.fetch_out], fun hne => by simp [hh, hb hne]⟩

end Sys2Proof.Machine
end

section
/-! What a step does to the input stream (spec/00_scope.md R13), and the machine at its parameters (R5). -/

namespace Sys2Proof.Machine

/-! Input: at most one keyboard event -/

theorem SameInput.refl (s : State) : SameInput s s := ⟨rfl, rfl, rfl, rfl⟩

theorem SameInput.trans {s t u : State} (h : SameInput s t) (k : SameInput t u) : SameInput s u := by
  obtain ⟨h1, h2, h3, h4⟩ := h
  obtain ⟨k1, k2, k3, k4⟩ := k
  exact ⟨k1.trans h1, k2.trans h2, k3.trans h3, k4.trans h4⟩

/-- What the environment shows depends on the input stream and the count of keyboard events alone. -/
theorem SameInput.settle {s t : State} (h : SameInput s t) :
    t.settle.inp = s.settle.inp ∧ t.settle.supply = s.settle.supply := by
  obtain ⟨h1, h2, -, h4⟩ := h
  unfold State.settle
  rw [h1, h2, h4]
  split
  · split <;> simp_all
  · exact ⟨h1, h2⟩

/-- Showing what stands at the front adds to the listed bytes at most. -/
theorem State.inp_suffix_settle (s : State) : s.inp <:+ s.settle.inp := by
  by_cases h : s.inp = []
  · rw [h]; exact List.nil_suffix
  · rw [State.settle_eq_self s (.inl h)]

theorem KeyboardEvent.of_sameInput {s t u : State} (h : SameInput s t) (e : KeyboardEvent t u) : KeyboardEvent s u := by
  obtain ⟨hi, hs⟩ := h.settle
  obtain ⟨-, -, -, hd⟩ := h
  obtain ⟨e1, e2, e3, e4⟩ := e
  exact ⟨hi ▸ e1, hi ▸ e2, hs ▸ e3, hd ▸ e4⟩

theorem KeyboardEvent.then_sameInput {s t u : State} (e : KeyboardEvent s t) (h : SameInput t u) :
    KeyboardEvent s u := by
  obtain ⟨hi, hs, -, hd⟩ := h
  obtain ⟨e1, e2, e3, e4⟩ := e
  exact ⟨hi ▸ e1, hi ▸ e2, hs.trans e3, hd.trans e4⟩

/-- From `s` to `t` no keyboard event has happened, or one (spec/00_scope.md R13). -/
def AtMostOneEvent (s t : State) : Prop := SameInput s t ∨ KeyboardEvent s t

theorem AtMostOneEvent.of_sameInput {s t u : State} (h : SameInput s t) : AtMostOneEvent t u → AtMostOneEvent s u :=
  Or.imp h.trans (KeyboardEvent.of_sameInput h)

theorem AtMostOneEvent.then_sameInput {s t u : State} (e : AtMostOneEvent s t) (h : SameInput t u) :
    AtMostOneEvent s u :=
  e.imp (·.trans h) (·.then_sameInput h)

theorem State.storePoll_sameInput (p : Config.Params) (s : State) (r : PollAnswer) : SameInput s (s.storePoll p r) := by
  cases r <;> exact SameInput.refl s

/-- A `MemRead` is one keyboard event at the keyboard-status address and none elsewhere (spec/20_memory.md R51). -/
theorem State.memRead_atMostOneEvent (p : Config.Params) (s : State) (a : Word) :
    AtMostOneEvent s (s.memRead p a).2 := by
  by_cases h : a = p.kbsr
  · rw [h, State.memRead_kbsr]
    exact .inr ((s.kbdPoll_event p).then_sameInput (State.storePoll_sameInput p _ _))
  · rw [State.memRead_plain p s a h]
    exact .inl (SameInput.refl s)

/-- The word a poll leaves in the status cell (spec/20_memory.md R51). -/
theorem State.memRead_kbsr_word (p : Config.Params) (h : p.kbsr ≠ p.kbdr) (s : State) :
    (s.memRead p p.kbsr).1 = 0x8000#16 ∨ (s.memRead p p.kbsr).1 = 0x0000#16 := by
  rw [State.memRead_kbsr]
  cases (s.kbdPoll p).1 <;> simp [State.storePoll, h]

/-- A read through a pointer polls once at most: the polled status words are not the keyboard-status address. -/
theorem State.indirect_memRead_atMostOneEvent (s : State) (off9 : BitVec 9) :
    AtMostOneEvent s ((s.indirect params off9).2.memRead params (s.indirect params off9).1).2 := by
  unfold State.indirect
  by_cases h : s.pcRel9 off9 = params.kbsr
  · have hw : (s.memRead params (s.pcRel9 off9)).1 ≠ params.kbsr := by
      rw [h]
      rcases State.memRead_kbsr_word params (by decide) s with e | e <;> rw [e] <;> decide
    rw [State.memRead_plain params _ _ hw]
    exact State.memRead_atMostOneEvent params s _
  · rw [State.memRead_plain params s _ h]
    exact State.memRead_atMostOneEvent params s _

/-- GETC, begun or held, is one keyboard event (spec/45_trap.md R169). -/
theorem routineGetc_event (p : Config.Params) (s : State) : KeyboardEvent s (routineGetc p s) := by
  rcases routineGetc_cases p s with ⟨w, -, e⟩ | ⟨-, e⟩ <;> rw [e] <;>
    exact (s.kbdGet_event p).then_sameInput (SameInput.refl _)

/-- IN past its prompt is one keyboard event. -/
theorem routineInRead_event (p : Config.Params) (s : State) : KeyboardEvent s (routineInRead p s) := by
  rcases routineInRead_cases p s with ⟨w, -, e⟩ | ⟨-, e⟩ <;> rw [e] <;>
    exact (s.kbdGet_event p).then_sameInput (SameInput.refl _)

/-- An instruction is at most one keyboard event. -/
theorem effect_atMostOneEvent (i : Instr) (s : State) (hi : i.wf params = true) :
    AtMostOneEvent s (effect params i s) := by
  cases i
  case trapGetc => exact .inr (routineGetc_event params s)
  case trapIn =>
    have hs : SameInput s (s.emit params.inPrompt) := SameInput.refl s
    exact .inr (.of_sameInput hs (routineInRead_event params _))
  case trap v => rw [effect_trap params v s hi]; exact .inl (SameInput.refl s)
  case br => exact .inl (by simp only [effect]; split <;> exact SameInput.refl s)
  case ld | ldr => exact (State.memRead_atMostOneEvent params s _).then_sameInput (SameInput.refl _)
  case ldi => exact (State.indirect_memRead_atMostOneEvent s _).then_sameInput (SameInput.refl _)
  case sti => exact (State.memRead_atMostOneEvent params s _).then_sameInput (SameInput.refl _)
  all_goals exact .inl (SameInput.refl s)

/-- A polled status word executes as a no-operation or a decode error, which is no further keyboard event
(spec/20_memory.md R63). -/
theorem effect_statusWord_sameInput (w : Word) (h : w = 0x8000#16 ∨ w = 0x0000#16) (s : State) :
    SameInput s (effect params (decodeWord params w) s) := by
  rcases h with rfl | rfl
  · rw [show decodeWord params 0x8000#16 = .undef8 0#12 by decide]
    exact SameInput.refl s
  · rw [show decodeWord params 0x0000#16 = .br 0#3 0#9 by decide]
    simp only [effect]
    split <;> exact SameInput.refl s

theorem resumeHold_atMostOneEvent (p : Config.Params) (h : Hold) (s : State) :
    AtMostOneEvent s (resumeHold p h s) := by
  cases h
  case getc => exact .inr (routineGetc_event p s)
  case input => exact .inr (routineInRead_event p s)
  case puts | putsp => exact .inl (SameInput.refl s)

/-- The fetched instruction, with its fetch, is at most one keyboard event. -/
theorem effect_fetch_atMostOneEvent (s : State) :
    AtMostOneEvent s (effect params (decodeWord params (s.fetch params).1) (s.fetch params).2) := by
  have hf : AtMostOneEvent s (s.fetch params).2 :=
    (State.memRead_atMostOneEvent params s s.pc).then_sameInput (SameInput.refl _)
  by_cases h : s.pc = params.kbsr
  · have hw : (s.fetch params).1 = 0x8000#16 ∨ (s.fetch params).1 = 0x0000#16 := by
      simpa only [State.fetch_eq, h] using State.memRead_kbsr_word params (by decide) s
    exact hf.then_sameInput (effect_statusWord_sameInput _ hw _)
  · have hs : SameInput s (s.fetch params).2 := by
      rw [State.fetch_eq, State.memRead_plain params s s.pc h]
      exact SameInput.refl s
    exact .of_sameInput hs (effect_atMostOneEvent _ _ (decodeWord_wf params _))

theorem step_atMostOneEvent (s t : State) (h : step s = .next t) : AtMostOneEvent s t := by
  obtain ⟨-, ⟨hd, -, rfl⟩ | ⟨-, rfl⟩⟩ := (step_next_iff s t).mp h
  · exact resumeHold_atMostOneEvent params hd s
  · exact effect_fetch_atMostOneEvent s

/-- No event or one: a tail of the settled input is left, and of a fixed stream the same continuation. -/
theorem AtMostOneEvent.leavesTail {s t : State} (e : AtMostOneEvent s t) :
    t.inp <:+ s.settle.inp ∧ (s.supply ≠ .unfixed → t.supply = s.supply ∧ t.inp <:+ s.inp) := by
  rcases e with ⟨hi, hs, -, -⟩ | ⟨hi, -, hs, -⟩
  · rw [hi]
    exact ⟨s.inp_suffix_settle, fun _ => ⟨hs, List.suffix_rfl⟩⟩
  · exact ⟨hi, fun hu => by rw [← State.settle_eq_self s (.inr hu)]; exact ⟨hs, hi⟩⟩

/-- Settles O52: a step is at most one keyboard event. -/
theorem inputIsConsumedFromTheFront : Obligations.InputIsConsumedFromTheFront := by
  intro s t h
  have e := step_atMostOneEvent s t h
  exact ⟨e.imp_right fun ⟨hi, hl, hs, hd⟩ => ⟨hi, hl, hs, hd⟩, e.leavesTail⟩

/-! Parameters that bear on the encodings alone -/

/-- `p` and `q` agree on every parameter an instruction's effect reads: they may differ in opcode numbers, trap vectors
and reset values (spec/00_scope.md R5). -/
structure SameMeaning (p q : Config.Params) : Prop where
  kbsr : p.kbsr = q.kbsr
  kbdr : p.kbdr = q.kbdr
  flPos : p.flPos = q.flPos
  flZro : p.flZro = q.flZro
  flNeg : p.flNeg = q.flNeg
  eosValue : p.eosValue = q.eosValue
  inPrompt : p.inPrompt = q.inPrompt
  haltNotice : p.haltNotice = q.haltNotice

namespace SameMeaning
variable {p q : Config.Params} (h : SameMeaning p q)
include h

theorem setRegCC (s : State) (dr : Reg) (v : Word) : s.setRegCC p dr v = s.setRegCC q dr v := by
  simp only [State.setRegCC, State.setCC, flagOf, h.flPos, h.flZro, h.flNeg]

theorem memRead (s : State) (a : Word) : s.memRead p a = s.memRead q a := by
  have hp : s.kbdPoll p = s.kbdPoll q := by simp only [State.kbdPoll, h.eosValue]
  have hs : ∀ (t : State) (r : PollAnswer), t.storePoll p r = t.storePoll q r := fun t r => by
    cases r <;> simp only [State.storePoll, h.kbsr, h.kbdr]
  simp only [State.memRead, h.kbsr, hp, hs]

theorem indirect (s : State) (off9 : BitVec 9) : s.indirect p off9 = s.indirect q off9 := h.memRead s _

theorem kbdGet (s : State) : s.kbdGet p = s.kbdGet q := by simp only [State.kbdGet, h.eosValue]

/-- An instruction well-formed for both has one effect. -/
theorem effect (i : Instr) (s : State) (hp : i.wf p = true) (hq : i.wf q = true) :
    effect p i s = effect q i s := by
  cases i
  case trap v => rw [effect_trap p v s hp, effect_trap q v s hq]
  case trapGetc => simp only [Machine.effect, routineGetc, h.kbdGet]
  case trapIn => simp only [Machine.effect, routineIn, routineInRead, h.kbdGet, h.inPrompt]
  case trapHalt => simp only [Machine.effect, routineHalt, h.haltNotice]
  case sti => simp only [Machine.effect, h.indirect]
  case ld | ldi | ldr => simp only [Machine.effect, h.indirect, h.memRead, h.setRegCC]
  case addReg | addImm | andReg | andImm | notReg | lea => simp only [Machine.effect, h.setRegCC]
  all_goals rfl

end SameMeaning

/-- Settles O58: each choice decodes its own encoding back to the instruction, whose effect is the same. -/
theorem renumberingChangesEncodingsOnly : Obligations.RenumberingChangesEncodingsOnly := by
  rintro p q hp hq ⟨h1, h2, hf, h4, h5, h6⟩ i s wp wq
  simp only [Config.Params.flags, List.cons.injEq, and_true] at hf
  obtain ⟨f1, f2, f3⟩ := hf
  have h : SameMeaning p q := ⟨h1, h2, f1, f2, f3, h4, h5, h6⟩
  rw [decodeWord_encode p hp i wp, decodeWord_encode q hq i wq, execWith_eq_effect, execWith_eq_effect,
    h.effect i s wp wq]

/-! The machine at the spec's parameters and at any -/

/-- Settles O55: the values by evaluation, the machine by the equations of `exec` and `step`. -/
theorem machineIsAtTheSpecsParameters : Obligations.MachineIsAtTheSpecsParameters :=
  ⟨by decide, rfl, by decide, rfl, rfl, rfl, rfl, rfl, rfl, rfl, by decide, by decide, rfl, fun _ _ => rfl,
    exec_eq_execWith, step_eq_stepWith⟩

theorem stepWith_running (p : Config.Params) (s : State) (hr : s.run = .running) (hh : s.hold = none) :
    stepWith p s = execWith p (decodeWord p (s.fetch p).1) (s.fetch p).2 := by
  simp only [stepWith, hr, hh]

theorem stepWith_halted (p : Config.Params) (s : State) (hr : s.run = .halted) : stepWith p s = .fault .halted := by
  simp only [stepWith, hr]

theorem stepWith_aborted (p : Config.Params) (s : State) (hr : s.run = .aborted) : stepWith p s = .fault .aborted := by
  simp only [stepWith, hr]

theorem State.resetWith_reg (p : Config.Params) (i : Reg) : (State.resetWith p).reg i = p.resetGpr :=
  Vector.getElem_replicate i.isLt

/-- Settles O56: the equations of `stepWith` in each run state, the effect of each instruction, and the reset fields. -/
theorem stepRunsTheDecodedInstructionAtAnyParameters : Obligations.StepRunsTheDecodedInstructionAtAnyParameters := by
  intro p s
  refine ⟨fun hr hh => ?_, stepWith_halted p s, stepWith_aborted p s, fun i => ⟨_, execWith_eq_effect p i s⟩, rfl,
    State.resetWith_reg p, rfl, rfl⟩
  rw [stepWith_running p s hr hh, State.fetch_eq]
  rfl

end Sys2Proof.Machine
end

section
/-! The state (spec/10_state.md): what reset and `SetCC` leave, and what an instruction does to COND, pc and run. -/

namespace Sys2Proof.Machine

/-! Reset -/

/-- Settles O9: field by field; the register file by `State.resetWith_reg`. -/
theorem resetValues : Obligations.ResetValues :=
  ⟨rfl, State.resetWith_reg params, rfl, fun _ => rfl, rfl, rfl, rfl, rfl, rfl⟩

/-! SetCC (R25) -/

/-- Bit 15 of a word is set where the word is at least 0x8000. -/
theorem word_getLsbD_15 (v : Word) : v.getLsbD 15 = decide (0x8000 ≤ v.toNat) := by
  simpa using (BitVec.msb_eq_getLsbD_last v).symm.trans (BitVec.msb_eq_decide v)

theorem flagOf_zero (p : Config.Params) : flagOf p 0x0000#16 = p.flZro := rfl

theorem flagOf_negative (p : Config.Params) (v : Word) (h : 0x8000 ≤ v.toNat) : flagOf p v = p.flNeg := by
  have hv : v ≠ 0x0000#16 := by rintro rfl; simp at h
  rw [flagOf, if_neg hv, word_getLsbD_15, if_pos (decide_eq_true h)]

theorem flagOf_positive (p : Config.Params) (v : Word) (h0 : 0 < v.toNat) (h : v.toNat < 0x8000) :
    flagOf p v = p.flPos := by
  have hv : v ≠ 0x0000#16 := by rintro rfl; simp at h0
  rw [flagOf, if_neg hv, word_getLsbD_15, if_neg (by simpa using h)]

@[simp] theorem State.setCC_cond (p : Config.Params) (s : State) (i : Reg) :
    (s.setCC p i).cond = flagOf p (s.reg i) := rfl

theorem SameData.setCond (s : State) (c : Word) : SameData s (s.setCond c) :=
  ⟨fun _ => rfl, fun _ => rfl, rfl, rfl, rfl, rfl⟩

/-- Settles O13: the three cases of `flagOf`; the frame is that of a write of COND. -/
theorem setCCClassifiesTheWrittenValue : Obligations.SetCCClassifiesTheWrittenValue := by
  intro p s i
  refine ⟨fun h => ?_, flagOf_negative p _, flagOf_positive p _, rfl, SameData.setCond s _, ⟨rfl, rfl, rfl⟩, rfl⟩
  have hz : s.reg i = 0x0000#16 := BitVec.eq_of_toNat_eq h
  rw [State.setCC_cond, hz, flagOf_zero]

/-! COND is neither read nor written -/

/-- `f` neither reads nor writes COND: from a state with another COND it ends as before, with that COND. -/
def CondBlind (f : State → State) : Prop := ∀ (s : State) (c : Word), f (s.setCond c) = (f s).setCond c

@[simp] theorem State.setCond_self (s : State) : s.setCond s.cond = s := rfl

/-- What does not read COND leaves it. -/
theorem CondBlind.cond {f : State → State} (h : CondBlind f) (s : State) : (f s).cond = s.cond := by
  conv_lhs => rw [← State.setCond_self s, h]
  rfl

theorem State.settle_condBlind : CondBlind State.settle := by
  intro s c
  simp only [State.settle, State.setCond_inp, State.setCond_supply, State.setCond_draws]
  split
  · split <;> rfl
  · rfl

/-- COND does not bear on a poll. -/
theorem State.kbdPoll_setCond (p : Config.Params) (s : State) (c : Word) :
    (s.setCond c).kbdPoll p = ((s.kbdPoll p).1, (s.kbdPoll p).2.setCond c) := by
  have hd : (s.setCond c).pollDraw = s.pollDraw := rfl
  simp only [State.kbdPoll, State.settle_condBlind s c, hd, State.setCond_inp, State.setCond_supply,
    State.setCond_oracle, State.setCond_draws]
  split
  · split <;> rfl
  · split <;> rfl
  · rfl

/-- COND does not bear on a blocking read. -/
theorem State.kbdGet_setCond (p : Config.Params) (s : State) (c : Word) :
    (s.setCond c).kbdGet p = ((s.kbdGet p).1, (s.kbdGet p).2.setCond c) := by
  simp only [State.kbdGet, State.settle_condBlind s c, State.setCond_inp, State.setCond_supply, State.setCond_draws]
  split <;> rfl

/-- COND does not bear on a `MemRead`. -/
theorem State.memRead_setCond (p : Config.Params) (s : State) (a : Word) (c : Word) :
    (s.setCond c).memRead p a = ((s.memRead p a).1, (s.memRead p a).2.setCond c) := by
  by_cases h : a = p.kbsr
  · subst h
    rw [State.memRead_kbsr, State.memRead_kbsr, State.kbdPoll_setCond]
    cases (s.kbdPoll p).1 <;> rfl
  · simp only [State.memRead_plain p _ a h, State.setCond_mem]

theorem State.indirect_setCond (p : Config.Params) (s : State) (off9 : BitVec 9) (c : Word) :
    (s.setCond c).indirect p off9 = ((s.indirect p off9).1, (s.indirect p off9).2.setCond c) :=
  State.memRead_setCond p s _ c

theorem routineGetc_condBlind (p : Config.Params) : CondBlind (routineGetc p) := by
  intro s c
  unfold routineGetc
  rw [State.kbdGet_setCond]
  rcases s.kbdGet p with ⟨- | w, t⟩ <;> rfl

theorem routineInRead_condBlind (p : Config.Params) : CondBlind (routineInRead p) := by
  intro s c
  unfold routineInRead
  rw [State.kbdGet_setCond]
  rcases s.kbdGet p with ⟨- | w, t⟩ <;> rfl

theorem routineIn_condBlind (p : Config.Params) : CondBlind (routineIn p) :=
  fun s c => routineInRead_condBlind p (s.emit p.inPrompt) c

theorem routineString_condBlind (bytesOf : Word → List Byte) (h : Hold) : CondBlind (routineString bytesOf h) :=
  fun _ _ => rfl

/-- The routine a vector selects is one of the six, or none (spec/45_trap.md R160, R168). -/
theorem trapRoutine_cases (p : Config.Params) (v : Byte) :
    trapRoutine p v = routineGetc p ∨ trapRoutine p v = routineOut ∨ trapRoutine p v = routinePuts ∨
      trapRoutine p v = routineIn p ∨ trapRoutine p v = routinePutsp ∨ trapRoutine p v = routineHalt p ∨
      trapRoutine p v = id := by
  unfold trapRoutine
  split_ifs <;> simp [funext_iff]

theorem trapRoutine_condBlind (p : Config.Params) (v : Byte) : CondBlind (trapRoutine p v) := by
  rcases trapRoutine_cases p v with e | e | e | e | e | e | e <;> rw [e]
  · exact routineGetc_condBlind p
  · exact fun _ _ => rfl
  · exact routineString_condBlind _ _
  · exact routineIn_condBlind p
  · exact routineString_condBlind _ _
  · exact fun _ _ => rfl
  · exact fun _ _ => rfl

/-! COND: who writes it, and who reads it (R26) -/

/-- An instruction that is neither BR nor one of the seven neither reads nor writes COND. -/
theorem effect_condBlind (p : Config.Params) (i : Instr) (hf : flagDest i = none) (hb : isBranch i = false) :
    CondBlind (effect p i) := by
  intro s c
  cases i
  case addReg | addImm | andReg | andImm | notReg | ld | ldi | ldr | lea => cases hf
  case br => cases hb
  case sti sr off9 =>
    simp only [effect, State.indirect_setCond]
    rfl
  case trap v => exact trapRoutine_condBlind p v s c
  case trapGetc => exact routineGetc_condBlind p s c
  case trapIn => exact routineIn_condBlind p s c
  case trapPuts | trapPutsp => exact routineString_condBlind _ _ s c
  all_goals rfl

/-- The seven end in `x[DR] <- v ; SetCC(DR)`, from a state and a word that do not depend on the COND they began with. -/
theorem effect_eq_setRegCC (p : Config.Params) (i : Instr) (dr : Reg) (hf : flagDest i = some dr) (s : State) :
    ∃ (u : State) (v : Word), ∀ c : Word, effect p i (s.setCond c) = u.setRegCC p dr v := by
  cases i <;> cases hf
  case addReg sr1 sr2 => exact ⟨s, s.reg sr1 + s.reg sr2, fun _ => rfl⟩
  case addImm sr1 imm5 => exact ⟨s, s.reg sr1 + immOperand imm5, fun _ => rfl⟩
  case andReg sr1 sr2 => exact ⟨s, s.reg sr1 &&& s.reg sr2, fun _ => rfl⟩
  case andImm sr1 imm5 => exact ⟨s, s.reg sr1 &&& immOperand imm5, fun _ => rfl⟩
  case notReg sr => exact ⟨s, ~~~ s.reg sr, fun _ => rfl⟩
  case lea off9 => exact ⟨s, s.pcRel9 off9, fun _ => rfl⟩
  case ld off9 =>
    let d := s.memRead p (s.pcRel9 off9)
    exact ⟨d.2, d.1, fun c => by simp only [effect, State.memRead_setCond]; rfl⟩
  case ldi off9 =>
    let d := (s.indirect p off9).2.memRead p (s.indirect p off9).1
    exact ⟨d.2, d.1, fun c => by simp only [effect, State.indirect_setCond, State.memRead_setCond]; rfl⟩
  case ldr baseR off6 =>
    let d := s.memRead p (s.baseOffset baseR off6)
    exact ⟨d.2, d.1, fun c => by simp only [effect, State.memRead_setCond]; rfl⟩

theorem State.setRegCC_setCC (p : Config.Params) (u : State) (dr : Reg) (v : Word) :
    (u.setRegCC p dr v).setCC p dr = u.setRegCC p dr v := rfl

/-- After one of the seven COND is what `SetCC(DR)` gives. -/
theorem effect_setCC (p : Config.Params) (i : Instr) (dr : Reg) (hf : flagDest i = some dr) (s : State) :
    (effect p i s).setCC p dr = effect p i s := by
  obtain ⟨u, v, e⟩ := effect_eq_setRegCC p i dr hf s
  have es : effect p i s = u.setRegCC p dr v := e s.cond
  rw [es, State.setRegCC_setCC]

theorem effect_cond_of_flagDest_none (p : Config.Params) (i : Instr) (hf : flagDest i = none) (s : State) :
    (effect p i s).cond = s.cond := by
  by_cases hb : isBranch i = true
  · cases i <;> cases hb
    simp only [effect]
    split <;> rfl
  · exact (effect_condBlind p i hf (by simpa using hb)).cond s

/-- Settles O14: the seven end in `SetCC(DR)` and read no COND; of the rest all but BR neither read nor write it. -/
theorem condIsWrittenBySevenAndReadByBranch : Obligations.CondIsWrittenBySevenAndReadByBranch := by
  refine ⟨fun i s t h => ?_, fun i s t c hb h => ?_⟩ <;> obtain rfl := (exec_next_iff i s t).mp h
  · exact ⟨fun dr hf => by rw [effect_setCC params i dr hf], fun hf => effect_cond_of_flagDest_none params i hf s⟩
  · rw [exec_eq_effect]
    cases hf : flagDest i with
    | none => rw [if_pos rfl, effect_condBlind params i hf hb s c]
    | some dr =>
      obtain ⟨u, v, e⟩ := effect_eq_setRegCC params i dr hf s
      have es : effect params i s = u.setRegCC params dr v := e s.cond
      rw [if_neg (by simp), e c, ← es, State.setCond_self]

/-! pc (R23) -/

theorem trapRoutine_pc (p : Config.Params) (v : Byte) (s : State) : (trapRoutine p v s).pc = s.pc := by
  rcases trapRoutine_cases p v with e | e | e | e | e | e | e <;> rw [e]
  · exact (routineGetc_frame p s).1
  · rfl
  · rfl
  · exact (routineInRead_frame p (s.emit p.inPrompt)).1
  · rfl
  · rfl
  · rfl

/-- All but BR, JMP, JSR and JSRR leave pc. -/
theorem effect_pc (p : Config.Params) (i : Instr) (hi : isTransfer i = false) (s : State) :
    (effect p i s).pc = s.pc := by
  cases i
  case br | jmp | jsr | jsrr => cases hi
  case trap v => exact trapRoutine_pc p v s
  case trapGetc => exact (routineGetc_frame p s).1
  case trapIn => exact (routineInRead_frame p (s.emit p.inPrompt)).1
  case ld | ldi | ldr | sti => simp [effect, State.indirect]
  all_goals rfl

/-- Settles O15, from what an instruction leaves of pc. -/
theorem pcIsWrittenByTransfersOnly : Obligations.PcIsWrittenByTransfersOnly := by
  intro i s t h hi
  rw [(exec_next_iff i s t).mp h, effect_pc params i hi]

/-! The run state (R29) -/

/-- HALT halts, an undefined opcode aborts, and no other instruction writes `run`. -/
theorem effect_run (p : Config.Params) (i : Instr) (hi : i.wf p = true) (s : State) :
    (effect p i s).run = if i = .trapHalt then .halted else if isUndefined i = true then .aborted else s.run := by
  cases i
  case trapHalt | undef8 | undefD => rfl
  case trap v => rw [effect_trap p v s hi]; rfl
  case trapGetc => obtain ⟨-, -, -, h, -⟩ := routineGetc_frame p s; exact h
  case trapIn => obtain ⟨-, -, -, h, -⟩ := routineInRead_frame p (s.emit p.inPrompt); exact h
  case br => simp only [effect]; split <;> rfl
  case ld | ldi | ldr | sti => simp [effect, State.indirect, isUndefined]
  all_goals rfl

theorem effect_run_eq_halted_iff (p : Config.Params) (i : Instr) (hi : i.wf p = true) (s : State)
    (hs : s.run = .running) : (effect p i s).run = .halted ↔ i = .trapHalt := by
  rw [effect_run p i hi, hs]
  split_ifs <;> simp [*]

theorem effect_run_eq_aborted_iff (p : Config.Params) (i : Instr) (hi : i.wf p = true) (s : State)
    (hs : s.run = .running) : (effect p i s).run = .aborted ↔ isUndefined i = true := by
  rw [effect_run p i hi, hs]
  split_ifs with h hu
  · simp [h, isUndefined]
  · simp [hu]
  · simp [hu]

/-- A held routine tried again leaves `run`. -/
theorem resumeHold_run (p : Config.Params) (h : Hold) (s : State) : (resumeHold p h s).run = s.run := by
  cases h
  case getc => obtain ⟨-, -, -, h, -⟩ := routineGetc_frame p s; exact h
  case input => obtain ⟨-, -, -, h, -⟩ := routineInRead_frame p s; exact h
  case puts | putsp => rfl

@[simp] theorem State.fetch_run (p : Config.Params) (s : State) : (s.fetch p).2.run = s.run := by
  simp [State.fetch_eq]

/-- Settles O50: a held routine leaves `run`, and a fetched instruction does what `effect_run` says. -/
theorem runChangesByHaltAndDecodeErrorOnly : Obligations.RunChangesByHaltAndDecodeErrorOnly := by
  intro s t h
  obtain ⟨hr, ⟨hd, hh, rfl⟩ | ⟨hh, rfl⟩⟩ := (step_next_iff s t).mp h
  · simp [resumeHold_run, hr, hh]
  · have hi := decodeWord_wf params (s.fetch params).1
    have hf : (s.fetch params).2.run = .running := by rw [State.fetch_run, hr]
    exact ⟨hr, by rw [effect_run_eq_halted_iff params _ hi _ hf, and_iff_right hh],
      by rw [effect_run_eq_aborted_iff params _ hi _ hf, and_iff_right hh]⟩

end Sys2Proof.Machine
end

section
/-! Memory and the keyboard (spec/20_memory.md): what a poll answers, what a `MemRead` of the keyboard-status address
leaves, and which cells an instruction changes. -/

namespace Sys2Proof.Machine

/-! The poll (R54): what it answers is read off the settled stream -/

/-- `s` after a poll that consumes nothing: the stream settled, one draw used up. -/
def State.polled (s : State) : State := { s.settle with oracle := s.oracle.tail, draws := s.draws + 1 }

section
variable (p : Config.Params) (s : State)

theorem State.kbdPoll_of_byte (b : Byte) (rest : List Byte) (h : s.settle.inp = b :: rest) :
    s.kbdPoll p =
      if s.pollDraw then (.ready (zext16 b), { s.polled with inp := rest }) else (.notReady, s.polled) := by
  simp only [State.kbdPoll, State.polled, h]

theorem State.kbdPoll_of_ended (h : s.settle.inp = []) (hs : s.settle.supply = .ended) :
    s.kbdPoll p = (if s.pollDraw then .ready p.eosValue else .notReady, s.polled) := by
  simp only [State.kbdPoll, State.polled, h, hs]
  split <;> rfl

theorem State.kbdPoll_of_nothing (h : s.settle.inp = []) (hs : s.settle.supply ≠ .ended) :
    s.kbdPoll p = (.notReady, s.polled) := by
  cases e : s.settle.supply
  case ended => exact absurd e hs
  case withheld | unfixed => simp only [State.kbdPoll, State.polled, h, e]

/-- With a byte listed in front the stream is settled, and the draw decides. -/
theorem State.kbdPoll_of_front (b : Byte) (rest : List Byte) (h : s.inp = b :: rest) :
    s.kbdPoll p =
      if s.pollDraw then (.ready (zext16 b), { s with inp := rest, oracle := s.oracle.tail, draws := s.draws + 1 })
      else (.notReady, { s with oracle := s.oracle.tail, draws := s.draws + 1 }) := by
  have e := s.settle_eq_self (.inl (by simp [h]))
  rw [State.kbdPoll_of_byte p s b rest (by rw [e, h]), State.polled, e]

/-- A Ready answer is the front byte of the settled stream, or `EOS_VALUE` at its end. -/
theorem State.kbdPoll_ready (w : Word) (h : (s.kbdPoll p).1 = .ready w) :
    (∃ b, s.settle.inp = b :: (s.kbdPoll p).2.inp ∧ w = zext16 b) ∨
      (w = p.eosValue ∧ s.settle.inp = [] ∧ s.settle.supply = .ended ∧ (s.kbdPoll p).2.inp = []) := by
  cases hi : s.settle.inp with
  | cons b rest =>
    rw [State.kbdPoll_of_byte p s b rest hi] at h ⊢
    cases hd : s.pollDraw <;> simp_all
  | nil =>
    by_cases hs : s.settle.supply = .ended
    · rw [State.kbdPoll_of_ended p s hi hs] at h ⊢
      cases hd : s.pollDraw <;> simp_all [State.polled]
    · rw [State.kbdPoll_of_nothing p s hi hs] at h
      cases h

theorem KeyboardOnly.eq_update {s t : State} (h : KeyboardOnly s t) :
    t = { s with inp := t.inp, supply := t.supply, oracle := t.oracle, draws := t.draws } := by
  obtain ⟨h1, h2, h3, h4, h5, h6, h7⟩ := h
  rw [← h1, ← h2, ← h3, ← h4, ← h5, ← h6, ← h7]

/-- A poll changes nothing but the stream and the draws. -/
theorem State.kbdPoll_state_eq :
    (s.kbdPoll p).2 = { s with inp := (s.kbdPoll p).2.inp, supply := s.settle.supply, oracle := s.oracle.tail,
                               draws := s.draws + 1 } := by
  obtain ⟨-, -, hs, hd⟩ := s.kbdPoll_event p
  rw [← hs, ← hd, ← State.kbdPoll_oracle p s]
  exact (s.kbdPoll_keyboardOnly p).eq_update

end

/-- A stream that is not fixed shows what the environment answers (log 7). -/
theorem State.settle_unfixed (s : State) (hi : s.inp = []) (hs : s.supply = .unfixed) :
    (∀ b, Config.envAnswer s.draws = .byte b → s.settle = { s with inp := [b] }) ∧
    (Config.envAnswer s.draws = .atEnd → s.settle = { s with supply := .ended }) ∧
    (Config.envAnswer s.draws = .nothing → s.settle = s) := by
  refine ⟨fun b e => ?_, fun e => ?_, fun e => ?_⟩ <;> simp only [State.settle, hi, hs, e]

/-- Settles O35: the poll's cases on the settled stream, which is the stream itself where the state fixes it. -/
theorem pollTakesFromTheFrontOrAnswersNotReady : Obligations.PollTakesFromTheFrontOrAnswersNotReady := by
  intro p s
  refine ⟨fun b rest hi hd => by rw [State.kbdPoll_of_front p s b rest hi, hd]; rfl,
    fun b rest hi hd => by rw [State.kbdPoll_of_front p s b rest hi, hd]; rfl,
    fun hi hs => ?_, fun hi hs => ?_, fun hi hs => ?_,
    State.kbdPoll_ready p s, State.kbdPoll_notReady_inp p s, State.kbdPoll_state_eq p s⟩
  · have e := s.settle_eq_self (.inr (by simp [hs]))
    rw [State.kbdPoll_of_ended p s (by rw [e, hi]) (by rw [e, hs]), State.polled, e]
  · have e := s.settle_eq_self (.inr (by simp [hs]))
    rw [State.kbdPoll_of_nothing p s (by rw [e, hi]) (by simp [e, hs]), State.polled, e]
  · obtain ⟨hb, he, hn⟩ := s.settle_unfixed hi hs
    cases ha : Config.envAnswer s.draws with
    | byte b =>
      have e := hb b ha
      rw [State.kbdPoll_of_byte p s b [] (by rw [e]), State.polled, e]
      simp [← hi]
    | atEnd =>
      have e := he ha
      rw [State.kbdPoll_of_ended p s (by rw [e, hi]) (by rw [e]), State.polled, e]
    | nothing =>
      have e := hn ha
      rw [State.kbdPoll_of_nothing p s (by rw [e, hi]) (by simp [e, hs]), State.polled, e]

/-! A `MemRead` of the keyboard-status address (R51) -/

section
variable (p : Config.Params) (s : State)

/-- After Ready both keyboard cells are set, and the status is returned. -/
theorem State.memRead_kbsr_of_ready (hk : p.kbsr ≠ p.kbdr) (w : Word) (h : (s.kbdPoll p).1 = .ready w) :
    (s.memRead p p.kbsr).1 = 0x8000#16 ∧ (s.memRead p p.kbsr).2.mem.read p.kbsr = 0x8000#16 ∧
      (s.memRead p p.kbsr).2.mem.read p.kbdr = w := by
  rw [State.memRead_kbsr, h]
  simp [State.storePoll, hk]

/-- After NotReady the status is clear and returned, and no other cell has changed. -/
theorem State.memRead_kbsr_of_notReady (h : (s.kbdPoll p).1 = .notReady) :
    (s.memRead p p.kbsr).1 = 0x0000#16 ∧ (s.memRead p p.kbsr).2.mem.read p.kbsr = 0x0000#16 ∧
      MemExcept s (s.memRead p p.kbsr).2 p.kbsr := by
  have hm := (s.kbdPoll_keyboardOnly p).mem
  rw [State.memRead_kbsr, h]
  exact ⟨by simp [State.storePoll], by simp [State.storePoll], fun a ha => by simp [State.storePoll, ha, hm]⟩

/-- Storing the answer takes no further input. -/
theorem State.memRead_kbsr_sameInput : SameInput (s.kbdPoll p).2 (s.memRead p p.kbsr).2 := by
  rw [State.memRead_kbsr]
  exact State.storePoll_sameInput p _ _

theorem State.memRead_memOutsideKeyboard (a : Word) : MemOutsideKeyboard p s (s.memRead p a).2 :=
  fun b h1 h2 => s.memRead_read_other p a b h1 h2

theorem State.memWrite_memExcept (a v : Word) : MemExcept s (s.memWrite a v) a :=
  fun b hb => by simp [hb]

end

/-- Settles O34: a `MemRead` elsewhere is plain, and at the status address it does what the poll's answer says. -/
theorem onlyTheStatusReadPolls : Obligations.OnlyTheStatusReadPolls := by
  rintro p s a ⟨-, hk, -⟩
  refine ⟨s.memRead_plain p a, s.memRead_kbsr_of_ready p hk, fun h => ?_, s.memRead_memOutsideKeyboard p _,
    s.memRead_kbsr_sameInput p, s.memRead_reg p _, s.memRead_pc p _, s.memRead_cond p _,
    ⟨s.memRead_run p _, s.memRead_hold p _, s.memRead_out p _⟩,
    fun v => ⟨by simp, s.memWrite_memExcept a v, SameInput.refl s⟩⟩
  obtain ⟨hw, hz, hm⟩ := s.memRead_kbsr_of_notReady p h
  exact ⟨hw, hz, hm _ hk.symm⟩

/-! The fetch (R63) -/

@[simp] theorem State.fetch_pc (p : Config.Params) (s : State) : (s.fetch p).2.pc = s.pc + 1#16 := by
  simp [State.fetch_eq]

@[simp] theorem State.fetch_hold (p : Config.Params) (s : State) : (s.fetch p).2.hold = s.hold := by
  simp [State.fetch_eq]

@[simp] theorem State.fetch_reg (p : Config.Params) (s : State) (j : Reg) : (s.fetch p).2.reg j = s.reg j := by
  simp [State.fetch_eq]

/-- Away from the keyboard-status address the fetch returns the cell and changes pc alone. -/
theorem State.fetch_plain (p : Config.Params) (s : State) (h : s.pc ≠ p.kbsr) :
    s.fetch p = (s.mem.read s.pc, s.setPc (s.pc + 1#16)) := by
  rw [State.fetch_eq, State.memRead_plain p s _ h]

theorem step_running (s : State) (hr : s.run = .running) (hh : s.hold = none) :
    step s = exec (decodeWord params (s.fetch params).1) (s.fetch params).2 := by
  simp only [step, hr, hh]

/-- The word a NotReady poll leaves in the status cell is a no-operation (R88). -/
theorem exec_zeroWord (s : State) : exec (decodeWord params 0x0000#16) s = .next s := by
  rw [show decodeWord params 0x0000#16 = .br 0#3 0#9 by decide]
  simp [exec_eq_effect, effect, State.condTest]

/-- The word a Ready poll leaves in the status cell has an undefined opcode (R86). -/
theorem exec_readyWord (s : State) : exec (decodeWord params 0x8000#16) s = .next (s.setRun .aborted) := by
  rw [show decodeWord params 0x8000#16 = .undef8 0#12 by decide]
  rfl

/-- Settles O37: the polled status word is decoded, and its execution changes at most `run`. -/
theorem fetchAtTheStatusAddress : Obligations.FetchAtTheStatusAddress := by
  intro s hr hh hpc
  have hf : s.fetch params =
      ((s.memRead params params.kbsr).1, (s.memRead params params.kbsr).2.setPc (s.pc + 1#16)) := by
    rw [State.fetch_eq, hpc]
  have hi := s.memRead_kbsr_sameInput params
  refine ⟨fun h => ?_, fun w h => ?_⟩
  · obtain ⟨hw, hz, hm⟩ := s.memRead_kbsr_of_notReady params h
    refine ⟨(s.fetch params).2, ?_, by simp [hr], by simp, s.fetch_reg params, ?_⟩
    · rw [step_running s hr hh, hf, hw, exec_zeroWord]
    · rw [hf]
      exact ⟨by simp, by simp, by simp [hh], hi, hz, hm⟩
  · obtain ⟨hw, hz, hd⟩ := s.memRead_kbsr_of_ready params (by decide) w h
    refine ⟨(s.fetch params).2.setRun .aborted, ?_, by simp, by simp, s.fetch_reg params, ?_⟩
    · rw [step_running s hr hh, hf, hw, exec_readyWord]
    · rw [hf]
      exact ⟨by simp, by simp, by simp [hh], hi, hz, hd, s.memRead_memOutsideKeyboard params _⟩

/-! Which cells an instruction changes (R67) -/

theorem trapRoutine_mem (p : Config.Params) (v : Byte) (s : State) : (trapRoutine p v s).mem = s.mem := by
  rcases trapRoutine_cases p v with e | e | e | e | e | e | e <;> rw [e]
  · obtain ⟨-, -, h, -⟩ := routineGetc_frame p s; exact h
  · rfl
  · rfl
  · obtain ⟨-, -, h, -⟩ := routineInRead_frame p (s.emit p.inPrompt); exact h
  · rfl
  · rfl
  · rfl

/-- A held routine tried again changes no cell. -/
theorem resumeHold_mem (p : Config.Params) (h : Hold) (s : State) : (resumeHold p h s).mem = s.mem := by
  cases h
  case getc => obtain ⟨-, -, h, -⟩ := routineGetc_frame p s; exact h
  case input => obtain ⟨-, -, h, -⟩ := routineInRead_frame p s; exact h
  case puts | putsp => rfl

/-- A cell that is neither keyboard cell nor the one an instruction stores to stays. -/
theorem effect_read_of_not_stored (p : Config.Params) (i : Instr) (s : State) (a : Word) (h1 : a ≠ p.kbsr)
    (h2 : a ≠ p.kbdr) (h : storeAddress p i s ≠ some a) : (effect p i s).mem.read a = s.mem.read a := by
  cases i
  case st | str => exact s.memWrite_memExcept _ _ a fun e => h (by rw [e]; rfl)
  case sti sr off9 =>
    have ha : a ≠ (s.indirect p off9).1 := fun e => h (by rw [e]; rfl)
    exact (State.memWrite_memExcept _ _ _ a ha).trans (s.memRead_read_other p _ a h1 h2)
  case ld | ldr => exact s.memRead_read_other p _ a h1 h2
  case ldi => exact (State.memRead_read_other p _ _ a h1 h2).trans (s.memRead_read_other p _ a h1 h2)
  case br => simp only [effect]; split <;> rfl
  case trap v => simp only [effect, trapRoutine_mem]
  case trapGetc => obtain ⟨-, -, hm, -⟩ := routineGetc_frame p s; simp only [effect, hm]
  case trapIn =>
    obtain ⟨-, -, hm, -⟩ := routineInRead_frame p (s.emit p.inPrompt)
    simp only [effect, routineIn, hm, State.emit_mem]
  all_goals rfl

/-- Settles O53: a held routine and the fetch leave such a cell, and an instruction changes the one it stores to. -/
theorem memoryChangesByStoresOnly : Obligations.MemoryChangesByStoresOnly := by
  intro s t a h h1 h2 hne
  obtain ⟨-, ⟨hd, -, rfl⟩ | ⟨hh, rfl⟩⟩ := (step_next_iff s t).mp h
  · exact absurd (by rw [resumeHold_mem]) hne
  · refine ⟨hh, by_contra fun ha => hne ?_⟩
    have hf : (s.fetch params).2.mem.read a = s.mem.read a := s.memRead_memOutsideKeyboard params s.pc a h1 h2
    rw [effect_read_of_not_stored params _ _ a h1 h2 ha, hf]

/-! A store and the next fetch (R63, spec/44_store.md R153) -/

/-- ST, STI and STR leave SR at their store address, and pc, `run` and the hold as they were. -/
theorem effect_store (p : Config.Params) (i : Instr) (sr : Reg) (s : State) (a : Word)
    (hs : storeSource i = some sr) (ha : storeAddress p i s = some a) :
    (effect p i s).mem.read a = s.reg sr ∧ (effect p i s).pc = s.pc ∧ (effect p i s).run = s.run ∧
      (effect p i s).hold = s.hold := by
  cases i <;> cases hs <;> cases ha
  case st | str => exact ⟨by simp [effect], rfl, rfl, rfl⟩
  case sti off9 =>
    exact ⟨by simp [effect, State.indirect], s.memRead_pc p _, s.memRead_run p _, s.memRead_hold p _⟩

/-- A step that fetches a store leaves SR at its store address, and the engine running at the next instruction. -/
theorem step_store (s : State) (sr : Reg) (a : Word) (hr : s.run = .running) (hh : s.hold = none)
    (hs : storeSource (decodeWord params (s.fetch params).1) = some sr)
    (ha : storeAddress params (decodeWord params (s.fetch params).1) (s.fetch params).2 = some a) :
    ∃ t, step s = .next t ∧ t.mem.read a = s.reg sr ∧ t.pc = s.pc + 1#16 ∧ t.run = .running ∧ t.hold = none := by
  obtain ⟨hm, hpc, hrun, hhold⟩ := effect_store params _ sr _ a hs ha
  rw [State.fetch_reg] at hm
  rw [State.fetch_pc] at hpc
  rw [State.fetch_run, hr] at hrun
  rw [State.fetch_hold, hh] at hhold
  exact ⟨_, by rw [step_running s hr hh, exec_eq_effect], hm, hpc, hrun, hhold⟩

/-- Settles O33: the store leaves a running engine whose pc is the stored cell, and the fetch there is plain. -/
theorem storeIsSeenByTheNextFetch : Obligations.StoreIsSeenByTheNextFetch := by
  rintro s i sr hr hh hk rfl hs ha
  obtain ⟨t, ht, hm, hpc, hrun, hhold⟩ := step_store s sr (s.pc + 1#16) hr hh hs ha
  have hf : t.fetch params = (s.reg sr, { t with pc := s.pc + 2#16 }) := by
    rw [State.fetch_plain params t (by rwa [hpc]), hpc, hm, BitVec.add_assoc]
    rfl
  exact ⟨t, ht, hpc, by rw [hf], by rw [step_running t hrun hhold, hf]⟩

end Sys2Proof.Machine
end

section
/-! Encoding (spec/30_encoding.md): what the decoder answers for the rows with ignored bits and for the undefined opcode
numbers, and what a step does with such words. -/

namespace Sys2Proof

/-! A word's opcode number is its top four bits -/

/-- A word is its top four bits before its low twelve (format of R81). -/
theorem word12_extract (w : Word) : word12 (w.extractLsb' 12 4) (w.extractLsb' 0 12) = w := by
  rw [word12, BitVec.extractLsb'_append_extractLsb'_eq_extractLsb' (by decide)]
  exact BitVec.extractLsb'_eq_self

/-- The mask of bits [15:12] shows the opcode number. -/
theorem and_opcodeMask_eq_iff (w : Word) (n : BitVec 4) :
    w &&& 0xF000#16 = word12 n 0#12 ↔ w.extractLsb' 12 4 = n := by
  constructor
  · intro h
    rw [field_of_mask w _ _ 12 4 h (by decide), word12_op]
  · rintro rfl
    have hm : (0xF000#16 : Word) = word12 (BitVec.allOnes 4) 0#12 := by decide
    conv_lhs => rw [← word12_extract w, hm]
    rw [word12, word12, BitVec.and_append, BitVec.and_allOnes, BitVec.and_zero]
    rfl

/-- A word that matches a mask over bits [15:12] has the opcode of the match. -/
theorem opcodeOf_of_mask (p : Config.Params) (w mask m : Word) (o : Option Opcode) (h : w &&& mask = m)
    (hm : mask.extractLsb' 12 4 = BitVec.allOnes 4) (ho : opcodeOf p (m.extractLsb' 12 4) = o) :
    opcodeOf p (w.extractLsb' 12 4) = o := by
  rw [field_of_mask w mask m 12 4 h hm, ho]

/-- Changing bits outside a field leaves the field. -/
theorem field_xor_mask (w x mask : Word) (a n : Nat) (hm : mask.extractLsb' a n = 0#n) :
    (w ^^^ (x &&& mask)).extractLsb' a n = w.extractLsb' a n := by
  rw [BitVec.extractLsb'_xor, BitVec.extractLsb'_and, hm, BitVec.and_zero, BitVec.xor_zero]

/-! Undefined opcode numbers (R86) -/

section
variable (p : Config.Params) (w : Word)

/-- A word whose number no opcode has decodes to an undefined row with its low twelve bits. -/
theorem decodeWord_of_no_opcode (h : opcodeOf p (w.extractLsb' 12 4) = none) :
    decodeWord p w =
      if w.extractLsb' 12 4 = undefinedLow p then .undef8 (w.extractLsb' 0 12) else .undefD (w.extractLsb' 0 12) := by
  rw [decodeWord, h]

theorem isUndefined_decodeTrap (v : Byte) : Machine.isUndefined (decodeTrap p v) = false := by
  unfold decodeTrap
  split_ifs <;> rfl

theorem isUndefined_decodeWord_iff :
    Machine.isUndefined (decodeWord p w) = true ↔ opcodeOf p (w.extractLsb' 12 4) = none := by
  cases h : opcodeOf p (w.extractLsb' 12 4) with
  | none =>
    rw [decodeWord_of_no_opcode p w h]
    split_ifs <;> simp [Machine.isUndefined]
  | some o =>
    rw [decodeWord, h]
    cases o
    case trap => simp [isUndefined_decodeTrap]
    case add | and | jsr => dsimp only; split_ifs <;> simp [Machine.isUndefined]
    all_goals simp [Machine.isUndefined]

end

theorem opcodeOf_params_eq_none_iff (n : BitVec 4) :
    opcodeOf Machine.params n = none ↔ n = 0b1000#4 ∨ n = 0b1101#4 := by
  revert n; decide

/-! The rows with ignored bits (R87): each reads the opcode, its form bit if it has one, and its operand fields -/

section
variable (p : Config.Params) (w x : Word)

/-- ADD and AND in register form do not read bits [4:3]. -/
theorem decodeWord_xor_operateReg (o : Opcode) (ho : opcodeOf p (w.extractLsb' 12 4) = some o) (h : o = .add ∨ o = .and)
    (h5 : w.extractLsb' 5 1 = 0#1) : decodeWord p (w ^^^ (x &&& 0x0018#16)) = decodeWord p w := by
  rcases h with rfl | rfl <;>
    simp (disch := decide) [decodeWord, field_xor_mask, ho, h5]

/-- NOT does not read bits [5:0]. -/
theorem decodeWord_xor_not (ho : opcodeOf p (w.extractLsb' 12 4) = some .not) :
    decodeWord p (w ^^^ (x &&& 0x003F#16)) = decodeWord p w := by
  simp (disch := decide) only [decodeWord, field_xor_mask, ho]

/-- JMP does not read bits [11:9] and [5:0]. -/
theorem decodeWord_xor_jmp (ho : opcodeOf p (w.extractLsb' 12 4) = some .jmp) :
    decodeWord p (w ^^^ (x &&& 0x0E3F#16)) = decodeWord p w := by
  simp (disch := decide) only [decodeWord, field_xor_mask, ho]

/-- JSRR does not read bits [10:9] and [5:0]. -/
theorem decodeWord_xor_jsrr (ho : opcodeOf p (w.extractLsb' 12 4) = some .jsr) (h11 : w.extractLsb' 11 1 = 0#1) :
    decodeWord p (w ^^^ (x &&& 0x063F#16)) = decodeWord p w := by
  simp (disch := decide) [decodeWord, field_xor_mask, ho, h11]

/-- TRAP does not read bits [11:8]. -/
theorem decodeWord_xor_trap (ho : opcodeOf p (w.extractLsb' 12 4) = some .trap) :
    decodeWord p (w ^^^ (x &&& 0x0F00#16)) = decodeWord p w := by
  simp (disch := decide) only [decodeWord, field_xor_mask, ho]

end

end Sys2Proof

namespace Sys2Proof.Machine

/-- Settles O2: the decoder inverts the encoder at any legal parameters. -/
theorem decodeInvertsEncode : Obligations.DecodeInvertsEncode := decodeWord_encode

/-- Settles O3: the decoder is undefined where no opcode has the number, which with the spec's map is two numbers. -/
theorem decodeIsTotalAndWellFormed : Obligations.DecodeIsTotalAndWellFormed := by
  refine ⟨fun p w => ⟨decodeWord_wf p w, ?_, fun _ => rfl⟩, fun w => ?_⟩
  · rw [isUndefined_decodeWord_iff, opcodeOf_eq_none_iff]
  · rw [isUndefined_decodeWord_iff, opcodeOf_params_eq_none_iff, ← and_opcodeMask_eq_iff, ← and_opcodeMask_eq_iff]
    rfl

/-- Settles O4: a row's mask shows its opcode and form bit, and the decoder does not read its ignored bits. -/
theorem ignoredBitsAreIgnored : Obligations.IgnoredBitsAreIgnored := by
  intro w x
  refine ⟨fun h => ?_, fun h => ?_, fun h => ?_, fun h => ?_, fun h => ?_, fun h => ?_⟩
  · exact decodeWord_xor_operateReg params w x .add (opcodeOf_of_mask params w _ _ _ h (by decide) (by decide))
      (.inl rfl) (field_of_mask w _ _ 5 1 h (by decide))
  · exact decodeWord_xor_operateReg params w x .and (opcodeOf_of_mask params w _ _ _ h (by decide) (by decide))
      (.inr rfl) (field_of_mask w _ _ 5 1 h (by decide))
  · exact decodeWord_xor_not params w x (opcodeOf_of_mask params w _ _ _ h (by decide) (by decide))
  · exact decodeWord_xor_jmp params w x (opcodeOf_of_mask params w _ _ _ h (by decide) (by decide))
  · exact decodeWord_xor_jsrr params w x (opcodeOf_of_mask params w _ _ _ h (by decide) (by decide))
      (field_of_mask w _ _ 11 1 h (by decide))
  · exact decodeWord_xor_trap params w x (opcodeOf_of_mask params w _ _ _ h (by decide) (by decide))

/-- Settles O5, by running the decoder on the nine words. -/
theorem workedEncodingsDecode : Obligations.WorkedEncodingsDecode := by
  unfold Obligations.WorkedEncodingsDecode
  decide

/-! Steps on words that name no opcode, or nothing to do -/

/-- Away from the keyboard-status address a step runs the cell at pc, with pc incremented (spec/40_cycle.md R110). -/
theorem step_plain (s : State) (hr : s.run = .running) (hh : s.hold = none) (hpc : s.pc ≠ params.kbsr) :
    step s = exec (decodeWord params (s.mem.read s.pc)) (s.setPc (s.pc + 1#16)) := by
  rw [step_running s hr hh, State.fetch_plain params s hpc]

/-- Executing an undefined row is the decode error (spec/60_exceptions.md R181). -/
theorem exec_of_isUndefined (i : Instr) (hi : isUndefined i = true) (s : State) :
    exec i s = .next { s with run := .aborted } := by
  rw [exec_eq_effect]
  cases i
  case undef8 | undefD => rfl
  all_goals cases hi

theorem decodeWord_undef8 (w : Word) (h : w &&& 0xF000#16 = 0x8000#16) :
    decodeWord params w = .undef8 (w.extractLsb' 0 12) := by
  have hn : w.extractLsb' 12 4 = 0b1000#4 := (and_opcodeMask_eq_iff w _).mp h
  rw [decodeWord_of_no_opcode params w (by rw [hn]; decide), if_pos (by rw [hn, undefinedLow_params])]

theorem decodeWord_undefD (w : Word) (h : w &&& 0xF000#16 = 0xD000#16) :
    decodeWord params w = .undefD (w.extractLsb' 0 12) := by
  have hn : w.extractLsb' 12 4 = 0b1101#4 := (and_opcodeMask_eq_iff w _).mp h
  rw [decodeWord_of_no_opcode params w (by rw [hn]; decide), if_neg (by rw [hn, undefinedLow_params]; decide)]

/-- Settles O49: the two numbers decode to the undefined rows, and executing one is the decode error. -/
theorem undefinedOpcodeAborts : Obligations.UndefinedOpcodeAborts := by
  refine ⟨fun w => ⟨decodeWord_undef8 w, decodeWord_undefD w⟩,
    fun _ s => ⟨exec_of_isUndefined _ rfl s, exec_of_isUndefined _ rfl s⟩, fun s hr hh hpc hu => ?_⟩
  rw [step_plain s hr hh hpc, exec_of_isUndefined _ hu]
  rfl

/-- Settles O54: the zero word decodes to a branch that tests no flag. -/
theorem zeroWordIsNoOperation : Obligations.ZeroWordIsNoOperation := by
  intro s hr hh hpc hz
  rw [step_plain s hr hh hpc, hz, exec_zeroWord]
  rfl

end Sys2Proof.Machine
end

section
/-! The cycle (spec/40_cycle.md): what a step runs, where no step is enabled, and how a held read goes on. -/

namespace Sys2Proof.Machine

/-! A running engine that holds nothing, and a stopped one (R110, R113) -/

/-- Settles O6: the step runs the fetched word, and away from the keyboard-status address that is the cell. -/
theorem stepRunsTheDecodedInstruction : Obligations.StepRunsTheDecodedInstruction := by
  intro s i hr hh
  refine ⟨?_, fun hpc => ?_⟩ <;> rintro rfl
  · rw [step_running s hr hh, State.fetch_eq]
    rfl
  · rw [step_plain s hr hh hpc]
    rfl

theorem step_halted (s : State) (hr : s.run = .halted) : step s = .fault .halted := by
  rw [step_eq_stepWith, stepWith_halted params s hr]

theorem step_aborted (s : State) (hr : s.run = .aborted) : step s = .fault .aborted := by
  rw [step_eq_stepWith, stepWith_aborted params s hr]

/-- Settles O7: a next state is answered in RUNNING alone. -/
theorem stoppedMachineTakesNoStep : Obligations.StoppedMachineTakesNoStep :=
  fun s => ⟨step_halted s, step_aborted s, fun hr t h => hr ((step_next_iff s t).mp h).1⟩

/-! The blocking read of a stream the state fixes (spec/45_trap.md R169) -/

section
variable (p : Config.Params) (s : State)

theorem State.kbdGet_of_front (b : Byte) (rest : List Byte) (h : s.inp = b :: rest) :
    s.kbdGet p = (some (zext16 b), { s with inp := rest, draws := s.draws + 1 }) := by
  simp only [State.kbdGet, s.settle_eq_self (.inl (by simp [h])), h]

theorem State.kbdGet_of_ended (h : s.inp = []) (hs : s.supply = .ended) :
    s.kbdGet p = (some p.eosValue, { s with draws := s.draws + 1 }) := by
  simp only [State.kbdGet, s.settle_eq_self (.inr (by simp [hs])), h, hs]

theorem State.kbdGet_of_withheld (h : s.inp = []) (hs : s.supply = .withheld) :
    s.kbdGet p = (none, { s with draws := s.draws + 1 }) := by
  simp only [State.kbdGet, s.settle_eq_self (.inr (by simp [hs])), h, hs]

end

theorem low8_zext16 (b : Byte) : low8 (zext16 b) = b :=
  (BitVec.setWidth_eq_extractLsb' (by decide)).symm.trans (BitVec.setWidth_setWidth_of_le b (by decide))

/-! A held read (R116): GETC, or IN past its prompt -/

theorem KeyboardOnly.reg {s t : State} (h : KeyboardOnly s t) (j : Reg) : t.reg j = s.reg j := by
  simp only [State.reg, h.regs]

/-- What a held read writes on completing: IN echoes, GETC does not (spec/45_trap.md R162, R165). -/
def heldEcho (h : Hold) (w : Word) : List Byte := if h = .input then [low8 w] else []

section
variable (s : State) {h : Hold} (hk : h = .getc ∨ h = .input)
include hk

/-- GETC and IN take what the blocking read found alike, but for the echo. -/
theorem resumeHold_of_found (p : Config.Params) (w : Word) (e : (s.kbdGet p).1 = some w) :
    resumeHold p h s = (((s.kbdGet p).2.emit (heldEcho h w)).setReg trapReg w).setHold none := by
  rcases hk with rfl | rfl
  · rcases routineGetc_cases p s with ⟨v, ev, hv⟩ | ⟨en, -⟩
    · obtain rfl : w = v := Option.some.inj (e.symm.trans ev)
      simp [resumeHold, hv, heldEcho, State.emit]
    · simp [e] at en
  · rcases routineInRead_cases p s with ⟨v, ev, hv⟩ | ⟨en, -⟩
    · obtain rfl : w = v := Option.some.inj (e.symm.trans ev)
      exact hv
    · simp [e] at en

/-- Where the blocking read finds nothing the hold stays. -/
theorem resumeHold_of_nothing (p : Config.Params) (e : (s.kbdGet p).1 = none) :
    resumeHold p h s = (s.kbdGet p).2.setHold (some h) := by
  rcases hk with rfl | rfl
  · rcases routineGetc_cases p s with ⟨v, ev, -⟩ | ⟨-, hv⟩
    · simp [e] at ev
    · exact hv
  · rcases routineInRead_cases p s with ⟨v, ev, -⟩ | ⟨-, hv⟩
    · simp [e] at ev
    · exact hv

end

/-- A running engine that holds a routine tries it again (R116). -/
theorem step_held (s : State) (h : Hold) (hr : s.run = .running) (hh : s.hold = some h) :
    step s = .next (resumeHold params h s) :=
  (step_next_iff s _).mpr ⟨hr, .inl ⟨h, hh, rfl⟩⟩

section
variable (s : State) {h : Hold} (hr : s.run = .running) (hh : s.hold = some h) (hk : h = .getc ∨ h = .input)
include hr hh hk

/-- A held read that finds nothing is the keyboard event alone. -/
theorem step_heldRead_waits (e : (s.kbdGet params).1 = none) : step s = .next (s.kbdGet params).2 := by
  have hold : (s.kbdGet params).2.hold = some h := (s.kbdGet_keyboardOnly params).hold.trans hh
  rw [step_held s h hr hh, resumeHold_of_nothing s hk params e, ← hold]
  rfl

/-- A held read that finds a word completes with it. -/
theorem step_heldRead_completes (w : Word) (e : (s.kbdGet params).1 = some w) :
    ∃ t, step s = .next t ∧ t.reg 0#3 = w ∧ RegsExcept s t 0#3 ∧ SameInput (s.kbdGet params).2 t ∧ t.hold = none ∧
      t.run = .running ∧ t.pc = s.pc ∧ t.cond = s.cond ∧ t.mem = s.mem ∧
      t.out = if s.hold = some .input then s.out ++ [low8 w] else s.out := by
  have k := s.kbdGet_keyboardOnly params
  refine ⟨_, step_held s h hr hh, ?_⟩
  rw [resumeHold_of_found s hk params w e]
  refine ⟨by simp [trapReg], fun j hj => ?_, SameInput.refl _, rfl, k.run.trans hr, k.pc, k.cond, k.mem, ?_⟩
  · simp [trapReg, hj, k.reg]
  · rcases hk with rfl | rfl <;> simp [heldEcho, hh, k.out]

end

/-- Settles O48: a held read completes with what the blocking read finds, and waits where it finds nothing. -/
theorem heldReadWaitsThenCompletes : Obligations.HeldReadWaitsThenCompletes := by
  intro s hr hg
  obtain ⟨h, hh, hk⟩ : ∃ h, s.hold = some h ∧ (h = .getc ∨ h = .input) :=
    hg.elim (fun e => ⟨_, e, .inl rfl⟩) fun e => ⟨_, e, .inr rfl⟩
  refine ⟨fun hi hs => ?_, fun b rest hi => ?_, fun hi hs => ?_, ?_⟩
  · have e := s.kbdGet_of_withheld params hi hs
    rw [step_heldRead_waits s hr hh hk (by rw [e]), e]
  · have e := s.kbdGet_of_front params b rest hi
    obtain ⟨t, ht, hw, hx, ⟨hin, -⟩, hf⟩ := step_heldRead_completes s hr hh hk (zext16 b) (by rw [e])
    rw [low8_zext16] at hf
    exact ⟨t, ht, hw, hx, by rw [hin, e], hf⟩
  · have e := s.kbdGet_of_ended params hi hs
    obtain ⟨t, ht, hw, hx, ⟨hin, -⟩, hf⟩ := step_heldRead_completes s hr hh hk params.eosValue (by rw [e])
    exact ⟨t, ht, hw, hx, by rw [hin, e, hi], hf⟩
  · cases e : (s.kbdGet params).1 with
    | none =>
      have k := s.kbdGet_keyboardOnly params
      exact ⟨_, step_heldRead_waits s hr hh hk e, fun j _ => k.reg j, k.run.trans hr, k.pc, k.cond, k.mem,
        SameInput.refl _, fun _ hw => (nomatch hw), fun _ => ⟨k.reg _, k.hold, k.out⟩⟩
    | some w =>
      obtain ⟨t, ht, hw, hx, hin, hn, hrun, hpc, hc, hm, ho⟩ := step_heldRead_completes s hr hh hk w e
      refine ⟨t, ht, hx, hrun, hpc, hc, hm, hin, fun v hv => ?_, fun hv => (nomatch hv)⟩
      obtain rfl : w = v := Option.some.inj hv
      exact ⟨hw, hn, ho⟩

end Sys2Proof.Machine
end

section
/-! Operate (spec/41_operate.md): ADD, AND and NOT, and the subtraction composed of them. -/

namespace Sys2Proof

/-! The rows of ADD, AND and NOT: opcode, and bit 5 where there are two forms (spec/30_encoding.md R92) -/

section
variable (p : Config.Params) (w : Word)

theorem decodeWord_add (ho : opcodeOf p (w.extractLsb' 12 4) = some .add) :
    decodeWord p w =
      if w.extractLsb' 5 1 = 1#1 then .addImm (w.extractLsb' 9 3) (w.extractLsb' 6 3) (w.extractLsb' 0 5)
      else .addReg (w.extractLsb' 9 3) (w.extractLsb' 6 3) (w.extractLsb' 0 3) := by
  rw [decodeWord, ho]

theorem decodeWord_and (ho : opcodeOf p (w.extractLsb' 12 4) = some .and) :
    decodeWord p w =
      if w.extractLsb' 5 1 = 1#1 then .andImm (w.extractLsb' 9 3) (w.extractLsb' 6 3) (w.extractLsb' 0 5)
      else .andReg (w.extractLsb' 9 3) (w.extractLsb' 6 3) (w.extractLsb' 0 3) := by
  rw [decodeWord, ho]

theorem decodeWord_not (ho : opcodeOf p (w.extractLsb' 12 4) = some .not) :
    decodeWord p w = .notReg (w.extractLsb' 9 3) (w.extractLsb' 6 3) := by
  rw [decodeWord, ho]

end

/-- The mask 0xF020 shows the opcode and the form bit. -/
theorem operateFields_of_mask (w m : Word) (o : Opcode) (h : w &&& 0xF020#16 = m)
    (ho : opcodeOf Machine.params (m.extractLsb' 12 4) = some o) :
    opcodeOf Machine.params (w.extractLsb' 12 4) = some o ∧ w.extractLsb' 5 1 = m.extractLsb' 5 1 :=
  ⟨opcodeOf_of_mask _ w _ m _ h (by decide) ho, field_of_mask w _ m 5 1 h (by decide)⟩

end Sys2Proof

namespace Sys2Proof.Machine

/-- What an instruction leaves that ends in `x[DR] <- v ; SetCC(DR)` from the state it begins in: `v` in DR, its flag in
COND, and nothing else changed (spec/10_state.md R26). -/
theorem exec_of_effect_eq_setRegCC (i : Instr) (s : State) (dr : Reg) (v : Word)
    (h : effect params i s = s.setRegCC params dr v) :
    ∃ t, exec i s = .next t ∧ t.reg dr = v ∧ t.cond = flagOf params (t.reg dr) ∧ RegsExcept s t dr ∧ t.pc = s.pc ∧
      SameOutside s t :=
  ⟨s.setRegCC params dr v, by rw [exec_eq_effect, h], by simp, rfl, fun j hj => by simp [hj], rfl,
    fun _ => rfl, ⟨rfl, rfl, rfl⟩, rfl, rfl, rfl, rfl⟩

/-- Settles O16: the row by mask and form bit; the sum is that of `BitVec.toNat_add`. -/
theorem addRegisterForm : Obligations.AddRegisterForm := by
  refine ⟨fun w h => ?_, fun dr sr1 sr2 s => ?_⟩
  · obtain ⟨ho, h5⟩ := operateFields_of_mask w _ .add h (by decide)
    rw [decodeWord_add params w ho, if_neg (by rw [h5]; decide)]
  · obtain ⟨t, ht, hv, frame⟩ := exec_of_effect_eq_setRegCC (.addReg dr sr1 sr2) s dr _ rfl
    exact ⟨t, ht, by rw [hv, BitVec.toNat_add], frame⟩

/-- Settles O17: as the register form, with `sext_5(imm5)` for the second source. -/
theorem addImmediateForm : Obligations.AddImmediateForm := by
  refine ⟨fun w h => ?_, fun dr sr1 imm5 s => ?_⟩
  · obtain ⟨ho, h5⟩ := operateFields_of_mask w _ .add h (by decide)
    rw [decodeWord_add params w ho, if_pos (by rw [h5]; decide)]
  · obtain ⟨t, ht, hv, frame⟩ := exec_of_effect_eq_setRegCC (.addImm dr sr1 imm5) s dr _ rfl
    exact ⟨t, ht, by rw [hv, immOperand, BitVec.toNat_add], frame⟩

/-- Settles O18: the row by mask and form bit; the bits are those of `BitVec.getLsbD_and`. -/
theorem andRegisterForm : Obligations.AndRegisterForm := by
  refine ⟨fun w h => ?_, fun dr sr1 sr2 s => ?_⟩
  · obtain ⟨ho, h5⟩ := operateFields_of_mask w _ .and h (by decide)
    rw [decodeWord_and params w ho, if_neg (by rw [h5]; decide)]
  · obtain ⟨t, ht, hv, frame⟩ := exec_of_effect_eq_setRegCC (.andReg dr sr1 sr2) s dr _ rfl
    exact ⟨t, ht, fun k _ => by rw [hv, BitVec.getLsbD_and], frame⟩

/-- Settles O19: as the register form, with `sext_5(imm5)` for the second source. -/
theorem andImmediateForm : Obligations.AndImmediateForm := by
  refine ⟨fun w h => ?_, fun dr sr1 imm5 s => ?_⟩
  · obtain ⟨ho, h5⟩ := operateFields_of_mask w _ .and h (by decide)
    rw [decodeWord_and params w ho, if_pos (by rw [h5]; decide)]
  · obtain ⟨t, ht, hv, frame⟩ := exec_of_effect_eq_setRegCC (.andImm dr sr1 imm5) s dr _ rfl
    exact ⟨t, ht, fun k _ => by rw [hv, immOperand, BitVec.getLsbD_and], frame⟩

/-- Settles O20: the row by mask; the complement as a number and bit by bit by the library's lemmas on `~~~`. -/
theorem notForm : Obligations.NotForm := by
  refine ⟨fun w h => decodeWord_not params w (opcodeOf_of_mask params w _ _ _ h (by decide) (by decide)),
    fun dr sr s => ?_⟩
  obtain ⟨t, ht, hv, frame⟩ := exec_of_effect_eq_setRegCC (.notReg dr sr) s dr _ rfl
  exact ⟨t, ht, by rw [hv, BitVec.toNat_not], fun k hk => by simp [hv, hk], frame⟩

/-- Adding the two's complement is subtraction. -/
theorem word_add_not_add_one (a b : Word) : a + (~~~ b + 1#16) = a - b := by
  rw [← BitVec.neg_eq_not_add, BitVec.sub_eq_add_neg]

/-- Settles O21: NOT and ADD #1 leave the two's complement in `rb` and do not touch `ra`, so that the last ADD is
`word_add_not_add_one`. -/
theorem subtractionIsComposed : Obligations.SubtractionIsComposed := by
  intro dr ra rb s hne
  obtain ⟨s1, h1, not1, -, keep1, -⟩ := exec_of_effect_eq_setRegCC (.notReg rb rb) s rb _ rfl
  obtain ⟨s2, h2, inc2, -, keep2, -⟩ := exec_of_effect_eq_setRegCC (.addImm rb rb 1#5) s1 rb _ rfl
  obtain ⟨t, h3, sum, -⟩ := exec_of_effect_eq_setRegCC (.addReg dr ra rb) s2 dr _ rfl
  have himm : immOperand 1#5 = 1#16 := by decide
  have hdiff : t.reg dr = s.reg ra - s.reg rb := by
    rw [sum, keep2 ra hne, keep1 ra hne, inc2, not1, himm, word_add_not_add_one]
  have hb : (s.reg rb).toNat < 65536 := (s.reg rb).isLt
  refine ⟨s1, s2, t, h1, h2, h3, ?_⟩
  rw [hdiff, BitVec.toNat_sub]
  congr 1
  omega

end Sys2Proof.Machine
end

section
/-! Control (spec/42_control.md): BR, JMP, JSR and JSRR. -/

namespace Sys2Proof

/-! The rows of BR, JMP and JSR: opcode, and bit 11 where there are two forms (spec/30_encoding.md R92) -/

section
variable (p : Config.Params) (w : Word)

theorem decodeWord_br (ho : opcodeOf p (w.extractLsb' 12 4) = some .br) :
    decodeWord p w = .br (w.extractLsb' 9 3) (w.extractLsb' 0 9) := by
  rw [decodeWord, ho]

theorem decodeWord_jmp (ho : opcodeOf p (w.extractLsb' 12 4) = some .jmp) :
    decodeWord p w = .jmp (w.extractLsb' 6 3) := by
  rw [decodeWord, ho]

theorem decodeWord_jsr (ho : opcodeOf p (w.extractLsb' 12 4) = some .jsr) :
    decodeWord p w =
      if w.extractLsb' 11 1 = 1#1 then .jsr (w.extractLsb' 0 11) else .jsrr (w.extractLsb' 6 3) := by
  rw [decodeWord, ho]

end

/-- The mask 0xF800 shows the opcode and the form bit. -/
theorem jsrFields_of_mask (w m : Word) (h : w &&& 0xF800#16 = m)
    (ho : opcodeOf Machine.params (m.extractLsb' 12 4) = some .jsr) :
    opcodeOf Machine.params (w.extractLsb' 12 4) = some .jsr ∧ w.extractLsb' 11 1 = m.extractLsb' 11 1 :=
  ⟨opcodeOf_of_mask _ w _ m _ h (by decide) ho, field_of_mask w _ m 11 1 h (by decide)⟩

end Sys2Proof

namespace Sys2Proof.Machine

/-! BR's test of COND (R130) -/

theorem State.condTest_iff (s : State) (cond3 : BitVec 3) :
    s.condTest cond3 = true ↔ cond3 &&& s.cond.extractLsb' 0 3 ≠ 0#3 := bne_iff_ne

/-- Where COND has the one low bit `k`, the test is bit `k` of cond3. -/
theorem and_cond_ne_zero_iff (cond3 : BitVec 3) (c : Word) (k : Nat) (hk : k < 3)
    (hc : c.extractLsb' 0 3 = BitVec.twoPow 3 k) :
    cond3 &&& c.extractLsb' 0 3 ≠ 0#3 ↔ cond3.getLsbD k = true := by
  have hpow : BitVec.twoPow 3 k ≠ 0#3 := fun h => by
    have hbit := congrArg (BitVec.getLsbD · k) h
    simp [hk] at hbit
  rw [hc, BitVec.and_twoPow]
  split_ifs with hb <;> simp [hb, hpow]

/-- Settles O22: the row by mask; the new pc by the test; and with one flag in COND, the test is that flag's bit of
cond3, the flags being distinct words. -/
theorem branchForm : Obligations.BranchForm := by
  refine ⟨fun w h => decodeWord_br params w (opcodeOf_of_mask params w _ _ _ h (by decide) (by decide)),
    fun cond3 off9 s => ?_, fun cond3 s hflag => ?_⟩
  · rw [exec_eq_effect]
    by_cases h : cond3 &&& s.cond.extractLsb' 0 3 ≠ 0#3
    · rw [effect, if_pos ((s.condTest_iff cond3).mpr h), if_pos h]
      rfl
    · rw [effect, if_neg (mt (s.condTest_iff cond3).mp h), if_neg h]
  · have hpz : params.flPos ≠ params.flZro := by decide
    have hpn : params.flPos ≠ params.flNeg := by decide
    have hzn : params.flZro ≠ params.flNeg := by decide
    have hcases : s.cond = params.flPos ∨ s.cond = params.flZro ∨ s.cond = params.flNeg := by
      simpa [CondIsFlag, Config.Params.flags] using hflag
    rcases hcases with hc | hc | hc <;> rw [hc]
    · rw [and_cond_ne_zero_iff cond3 params.flPos 0 (by decide) (by decide)]
      simp [hpz, hpn]
    · rw [and_cond_ne_zero_iff cond3 params.flZro 1 (by decide) (by decide)]
      simp [hpz.symm, hzn]
    · rw [and_cond_ne_zero_iff cond3 params.flNeg 2 (by decide) (by decide)]
      simp [hpn.symm, hzn.symm]

/-- Settles O23: the row by mask; the effect is a write of pc. -/
theorem jumpForm : Obligations.JumpForm :=
  ⟨fun w h => decodeWord_jmp params w (opcodeOf_of_mask params w _ _ _ h (by decide) (by decide)),
    fun baseR s => exec_eq_effect (.jmp baseR) s⟩

/-! The calls -/

/-- What an instruction leaves that links and jumps to `v`: the pc it begins with in R7, `v` in pc, and nothing else
changed (R132, R133). -/
theorem exec_of_effect_eq_link (i : Instr) (s : State) (v : Word)
    (h : effect params i s = (s.setReg linkReg s.pc).setPc v) :
    ∃ t, exec i s = .next t ∧ t.reg 7#3 = s.pc ∧ t.pc = v ∧ RegsExcept s t 7#3 ∧ t.cond = s.cond ∧ SameOutside s t :=
  ⟨(s.setReg linkReg s.pc).setPc v, by rw [exec_eq_effect, h], by simp [linkReg], rfl,
    fun j hj => by simp [linkReg, hj], rfl, fun _ => rfl, ⟨rfl, rfl, rfl⟩, rfl, rfl, rfl, rfl⟩

/-- Settles O24: the row by mask and form bit; the target is formed from the pc that is linked. -/
theorem jsrForm : Obligations.JsrForm := by
  refine ⟨fun w h => ?_, fun off11 s => exec_of_effect_eq_link (.jsr off11) s _ rfl⟩
  obtain ⟨ho, h11⟩ := jsrFields_of_mask w _ h (by decide)
  rw [decodeWord_jsr params w ho, if_pos (by rw [h11]; decide)]

/-- Settles O25: the row by mask and form bit; BaseR is read after R7 is written, so BaseR = R7 gives the linked pc. -/
theorem jsrrForm : Obligations.JsrrForm := by
  refine ⟨fun w h => ?_, fun baseR s => ?_⟩
  · obtain ⟨ho, h11⟩ := jsrFields_of_mask w _ h (by decide)
    rw [decodeWord_jsr params w ho, if_neg (by rw [h11]; decide)]
  · have htarget : (s.setReg linkReg s.pc).reg baseR = if baseR = 7#3 then s.pc else s.reg baseR :=
      State.setReg_reg s linkReg baseR s.pc
    rw [← htarget]
    exact exec_of_effect_eq_link (.jsrr baseR) s _ rfl

end Sys2Proof.Machine
end

section
/-! Loads (spec/43_load.md): LD, LDI and LDR, each ending with a `MemRead`, and LEA, which reads nothing. -/

namespace Sys2Proof

/-! The rows of LD, LDI, LDR and LEA (spec/30_encoding.md R92) -/

section
variable (p : Config.Params) (w : Word)

theorem decodeWord_ld (ho : opcodeOf p (w.extractLsb' 12 4) = some .ld) :
    decodeWord p w = .ld (w.extractLsb' 9 3) (w.extractLsb' 0 9) := by
  rw [decodeWord, ho]

theorem decodeWord_ldi (ho : opcodeOf p (w.extractLsb' 12 4) = some .ldi) :
    decodeWord p w = .ldi (w.extractLsb' 9 3) (w.extractLsb' 0 9) := by
  rw [decodeWord, ho]

theorem decodeWord_ldr (ho : opcodeOf p (w.extractLsb' 12 4) = some .ldr) :
    decodeWord p w = .ldr (w.extractLsb' 9 3) (w.extractLsb' 6 3) (w.extractLsb' 0 6) := by
  rw [decodeWord, ho]

theorem decodeWord_lea (ho : opcodeOf p (w.extractLsb' 12 4) = some .lea) :
    decodeWord p w = .lea (w.extractLsb' 9 3) (w.extractLsb' 0 9) := by
  rw [decodeWord, ho]

end

end Sys2Proof

namespace Sys2Proof.Machine

/-! What any number of `MemRead`s leaves alone (spec/20_memory.md R51, R67) -/

/-- `t` has the registers, pc, run state, hold and output of `s`, and its cells but the two keyboard cells. -/
structure ReadFrame (p : Config.Params) (s t : State) : Prop where
  regs : SameRegs s t
  pc : t.pc = s.pc
  runOut : SameRunOut s t
  mem : MemOutsideKeyboard p s t

theorem ReadFrame.refl (p : Config.Params) (s : State) : ReadFrame p s s :=
  ⟨fun _ => rfl, rfl, ⟨rfl, rfl, rfl⟩, fun _ _ _ => rfl⟩

/-- One more `MemRead` keeps the frame. -/
theorem ReadFrame.memRead {p : Config.Params} {s u : State} (h : ReadFrame p s u) (a : Word) :
    ReadFrame p s (u.memRead p a).2 := by
  obtain ⟨hregs, hpc, ⟨hrun, hhold, hout⟩, hmem⟩ := h
  exact ⟨fun j => (u.memRead_reg p a j).trans (hregs j), (u.memRead_pc p a).trans hpc,
    ⟨(u.memRead_run p a).trans hrun, (u.memRead_hold p a).trans hhold, (u.memRead_out p a).trans hout⟩,
    fun b h1 h2 => (u.memRead_read_other p a b h1 h2).trans (hmem b h1 h2)⟩

/-- What an instruction leaves that began in `s`, reads at `ea` from `u`, and ends in `x[DR] <- word ; SetCC(DR)`: `u` is
`s` for LD and LDR, and the state the pointer read leaves for LDI. -/
theorem exec_of_effect_eq_load (i : Instr) {s u : State} (hu : ReadFrame params s u) (dr : Reg) (ea : Word)
    (h : effect params i s = (u.memRead params ea).2.setRegCC params dr (u.memRead params ea).1) :
    ∃ t, exec i s = .next t ∧ Loaded s u dr ea (u.memRead params ea) t := by
  obtain ⟨hregs, hpc, hrunOut, hmem⟩ := hu.memRead ea
  refine ⟨_, exec_eq_effect i s, ?_⟩
  rw [h]
  refine ⟨by simp, by simp, fun j hj => by simp [hj, hregs j], hpc, hrunOut, fun _ => rfl, SameInput.refl _, hmem,
    fun hea => ?_⟩
  rw [State.memRead_plain params u ea hea]
  exact ⟨by simp, fun _ => rfl, SameInput.refl u⟩

/-- Settles O26: the row by mask; one read, from the state the instruction begins in. -/
theorem ldForm : Obligations.LdForm :=
  ⟨fun w h => decodeWord_ld params w (opcodeOf_of_mask params w _ _ _ h (by decide) (by decide)),
    fun dr off9 s => exec_of_effect_eq_load (.ld dr off9) (ReadFrame.refl params s) dr _ rfl⟩

/-- Settles O27: the row by mask; the data read is done in the state the pointer read leaves. -/
theorem ldiForm : Obligations.LdiForm := by
  refine ⟨fun w h => decodeWord_ldi params w (opcodeOf_of_mask params w _ _ _ h (by decide) (by decide)), ?_⟩
  rintro dr off9 s _ rfl
  have hptr : ReadFrame params s (s.memRead params (s.pc + sextField off9)).2 := (ReadFrame.refl params s).memRead _
  obtain ⟨t, ht, hl⟩ := exec_of_effect_eq_load (.ldi dr off9) hptr dr _ rfl
  exact ⟨t, ht, hl, s.memRead_plain params _⟩

/-- Settles O28: the row by mask; as LD, with the address from BaseR of the state the instruction begins in. -/
theorem ldrForm : Obligations.LdrForm :=
  ⟨fun w h => decodeWord_ldr params w (opcodeOf_of_mask params w _ _ _ h (by decide) (by decide)),
    fun dr baseR off6 s => exec_of_effect_eq_load (.ldr dr baseR off6) (ReadFrame.refl params s) dr _ rfl⟩

/-- Settles O29: the row by mask; the address itself is written, as the result of an operate instruction is. -/
theorem leaForm : Obligations.LeaForm := by
  refine ⟨fun w h => decodeWord_lea params w (opcodeOf_of_mask params w _ _ _ h (by decide) (by decide)),
    fun dr off9 s => ?_⟩
  obtain ⟨t, ht, hv, hc, frame⟩ := exec_of_effect_eq_setRegCC (.lea dr off9) s dr _ rfl
  exact ⟨t, ht, hv, by rw [hc, hv]; rfl, frame⟩

end Sys2Proof.Machine
end

section
/-! Stores (spec/44_store.md): ST, STI and STR, each ending with a plain store of SR. -/

namespace Sys2Proof

/-! The rows of ST, STI and STR (spec/30_encoding.md R92) -/

section
variable (p : Config.Params) (w : Word)

theorem decodeWord_st (ho : opcodeOf p (w.extractLsb' 12 4) = some .st) :
    decodeWord p w = .st (w.extractLsb' 9 3) (w.extractLsb' 0 9) := by
  rw [decodeWord, ho]

theorem decodeWord_sti (ho : opcodeOf p (w.extractLsb' 12 4) = some .sti) :
    decodeWord p w = .sti (w.extractLsb' 9 3) (w.extractLsb' 0 9) := by
  rw [decodeWord, ho]

theorem decodeWord_str (ho : opcodeOf p (w.extractLsb' 12 4) = some .str) :
    decodeWord p w = .str (w.extractLsb' 9 3) (w.extractLsb' 6 3) (w.extractLsb' 0 6) := by
  rw [decodeWord, ho]

end

end Sys2Proof

namespace Sys2Proof.Machine

/-- What an instruction leaves that began in `s` and ends by storing SR at `ea` in `u`: `u` is `s` for ST and STR, and
the state the pointer read leaves for STI. A store writes no COND, so COND of `u` is asked for beside the read's
frame. -/
theorem exec_of_effect_eq_store (i : Instr) {s u : State} (hu : ReadFrame params s u) (hcond : u.cond = s.cond)
    (sr : Reg) (ea : Word) (h : effect params i s = u.memWrite ea (u.reg sr)) :
    ∃ t, exec i s = .next t ∧ Stored s u ea (s.reg sr) t := by
  refine ⟨_, exec_eq_effect i s, ?_⟩
  rw [h, hu.regs sr]
  exact ⟨by simp, u.memWrite_memExcept ea _, SameInput.refl u, hu.regs, hu.pc, hcond, hu.runOut⟩

/-- Settles O30: the row by mask; the store is done in the state the instruction begins in. -/
theorem stForm : Obligations.StForm :=
  ⟨fun w h => decodeWord_st params w (opcodeOf_of_mask params w _ _ _ h (by decide) (by decide)),
    fun sr off9 s => exec_of_effect_eq_store (.st sr off9) (ReadFrame.refl params s) rfl sr _ rfl⟩

/-- Settles O31: the row by mask; the store is done in the state the pointer read leaves. -/
theorem stiForm : Obligations.StiForm := by
  refine ⟨fun w h => decodeWord_sti params w (opcodeOf_of_mask params w _ _ _ h (by decide) (by decide)), ?_⟩
  rintro sr off9 s _ rfl
  have hptr : ReadFrame params s (s.memRead params (s.pc + sextField off9)).2 := (ReadFrame.refl params s).memRead _
  obtain ⟨t, ht, hst⟩ := exec_of_effect_eq_store (.sti sr off9) hptr (s.memRead_cond params _) sr _ rfl
  exact ⟨t, ht, hst, s.memRead_plain params _⟩

/-- Settles O32: the row by mask; as ST, with the address from BaseR, which may be SR. -/
theorem strForm : Obligations.StrForm :=
  ⟨fun w h => decodeWord_str params w (opcodeOf_of_mask params w _ _ _ h (by decide) (by decide)),
    fun sr baseR off6 s => exec_of_effect_eq_store (.str sr baseR off6) (ReadFrame.refl params s) rfl sr _ rfl⟩

end Sys2Proof.Machine
end

section
/-! TRAP (spec/45_trap.md): the dispatch by vector, the blocking read and the two routines that make it, the string
routines, OUT and HALT. -/

namespace Sys2Proof

/-! The rows of TRAP (R160, R161) -/

section
variable (p : Config.Params) (w : Word)

theorem decodeWord_trap (ho : opcodeOf p (w.extractLsb' 12 4) = some .trap) :
    decodeWord p w = decodeTrap p (w.extractLsb' 0 8) := by
  rw [decodeWord, ho]

/-- The mask of bits [15:12] shows a TRAP word, whose row its vector selects. -/
theorem decodeWord_of_trapOpcode (h : w &&& 0xF000#16 = 0xF000#16) :
    decodeWord Machine.params w = decodeTrap Machine.params (w.extractLsb' 0 8) :=
  decodeWord_trap _ w (opcodeOf_of_mask _ w _ _ _ h (by decide) (by decide))

/-- The mask 0xF0FF shows the opcode and the vector, and the vector its row. -/
theorem decodeWord_of_trapMask {m : Word} {i : Instr} (h : w &&& 0xF0FF#16 = m)
    (ho : opcodeOf Machine.params (m.extractLsb' 12 4) = some .trap)
    (hi : decodeTrap Machine.params (m.extractLsb' 0 8) = i) : decodeWord Machine.params w = i := by
  rw [decodeWord_trap _ w (opcodeOf_of_mask _ w _ m _ h (by decide) ho), field_of_mask w _ m 0 8 h (by decide), hi]

end

end Sys2Proof

namespace Sys2Proof.Machine

/-! The dispatch (R160, R168) -/

/-- The row a vector selects has the effect of the routine the vector selects. -/
theorem effect_decodeTrap (p : Config.Params) (v : Byte) (s : State) :
    effect p (decodeTrap p v) s = trapRoutine p v s := by
  unfold decodeTrap
  split_ifs
  case neg => rfl
  all_goals
    unfold trapRoutine
    split_ifs
    rfl

/-- Settles O46: the term TRAP v and the row of v both run the routine of v, and a TRAP word decodes by its vector. -/
theorem trapDispatchesByVector : Obligations.TrapDispatchesByVector := by
  intro v s
  refine ⟨?_, fun w h hv => by rw [decodeWord_of_trapOpcode w h, hv]⟩
  rw [exec_eq_effect, exec_eq_effect, effect_decodeTrap]
  rfl

theorem exec_trap_of_not_mem (v : Byte) (s : State) (h : v ∉ params.trapVectors) : exec (.trap v) s = .next s := by
  rw [exec_eq_effect, effect_trap params v s ((Instr.wf_trap_iff params v).mpr h)]

/-- Settles O45: such a word decodes to TRAP with its vector, and a decoded TRAP has no vector of the table. -/
theorem unknownVectorIsNoOperation : Obligations.UnknownVectorIsNoOperation := by
  refine ⟨fun w h hv => ?_, exec_trap_of_not_mem, fun v s hr hh hpc hd => ?_⟩
  · rw [decodeWord_of_trapOpcode w h, decodeTrap_of_not_mem params _ hv]
  · have hv : v ∉ params.trapVectors := (Instr.wf_trap_iff params v).mp (hd ▸ decodeWord_wf params _)
    rw [step_plain s hr hh hpc, hd, exec_trap_of_not_mem v _ hv]
    rfl

/-! The blocking read (R169): what it answers is read off the settled stream -/

theorem State.settle_oracle (s : State) : s.settle.oracle = s.oracle := by
  unfold State.settle
  split
  · split <;> rfl
  · rfl

section
variable (p : Config.Params) (s : State)

theorem State.kbdGet_of_settled_front (b : Byte) (rest : List Byte) (h : s.settle.inp = b :: rest) :
    s.kbdGet p = (some (zext16 b), { s.settle with inp := rest, draws := s.draws + 1 }) := by
  simp only [State.kbdGet, h]

theorem State.kbdGet_of_settled_ended (h : s.settle.inp = []) (hs : s.settle.supply = .ended) :
    s.kbdGet p = (some p.eosValue, { s.settle with draws := s.draws + 1 }) := by
  simp only [State.kbdGet, h, hs]

theorem State.kbdGet_of_settled_nothing (h : s.settle.inp = []) (hs : s.settle.supply ≠ .ended) :
    s.kbdGet p = (none, { s.settle with draws := s.draws + 1 }) := by
  cases e : s.settle.supply
  case ended => exact absurd e hs
  case withheld | unfixed => simp only [State.kbdGet, h, e]

/-- All a blocking read can find: the front byte of the settled stream, its end, or nothing. -/
theorem State.kbdGet_cases :
    (∃ b, s.settle.inp = b :: (s.kbdGet p).2.inp ∧ (s.kbdGet p).1 = some (zext16 b)) ∨
      (s.settle.inp = [] ∧ (s.kbdGet p).2.inp = [] ∧
        (s.settle.supply = .ended ∧ (s.kbdGet p).1 = some p.eosValue ∨
          s.settle.supply ≠ .ended ∧ (s.kbdGet p).1 = none)) := by
  cases hi : s.settle.inp with
  | cons b rest =>
    rw [State.kbdGet_of_settled_front p s b rest hi]
    exact .inl ⟨b, rfl, rfl⟩
  | nil =>
    by_cases hs : s.settle.supply = .ended
    · rw [State.kbdGet_of_settled_ended p s hi hs]
      exact .inr ⟨rfl, hi, .inl ⟨hs, rfl⟩⟩
    · rw [State.kbdGet_of_settled_nothing p s hi hs]
      exact .inr ⟨rfl, hi, .inr ⟨hs, rfl⟩⟩

theorem State.kbdGet_oracle : (s.kbdGet p).2.oracle = s.oracle := by
  unfold State.kbdGet
  dsimp only
  split <;> exact s.settle_oracle

/-- A blocking read changes nothing but the stream and the draws. -/
theorem State.kbdGet_state_eq :
    (s.kbdGet p).2 = { s with inp := (s.kbdGet p).2.inp, supply := s.settle.supply, draws := s.draws + 1 } := by
  obtain ⟨-, -, hs, hd⟩ := s.kbdGet_event p
  rw [← hs, ← hd]
  conv_rhs => rw [← State.kbdGet_oracle p s]
  exact (s.kbdGet_keyboardOnly p).eq_update

end

/-- Settles O36: the read's cases on the settled stream, which is the stream itself where the state fixes it. -/
theorem blockingReadTakesTheFront : Obligations.BlockingReadTakesTheFront := by
  intro p s
  refine ⟨s.kbdGet_of_front p, s.kbdGet_of_ended p, s.kbdGet_of_withheld p, fun hi hs => ?_, fun hn => ?_,
    fun w hw => ?_, s.kbdGet_state_eq p⟩
  · obtain ⟨hb, he, hn⟩ := s.settle_unfixed hi hs
    cases ha : Config.envAnswer s.draws with
    | byte b =>
      have e := hb b ha
      rw [State.kbdGet_of_settled_front p s b [] (by rw [e]), e]
      simp [← hi]
    | atEnd =>
      have e := he ha
      rw [State.kbdGet_of_settled_ended p s (by rw [e, hi]) (by rw [e]), e]
    | nothing =>
      have e := hn ha
      rw [State.kbdGet_of_settled_nothing p s (by rw [e, hi]) (by simp [e, hs]), e]
  · rcases s.kbdGet_cases p with ⟨b, -, h⟩ | ⟨hi, -, ⟨-, h⟩ | ⟨hs, -⟩⟩
    · simp [h] at hn
    · simp [h] at hn
    · exact ⟨hi, hs⟩
  · rcases s.kbdGet_cases p with ⟨b, hi, h⟩ | ⟨hi, hr, ⟨hs, h⟩ | ⟨-, h⟩⟩
    · exact .inl ⟨b, hi, Option.some.inj (hw.symm.trans h)⟩
    · exact .inr ⟨Option.some.inj (hw.symm.trans h), hi, hs, hr⟩
    · simp [h] at hw

/-! GETC and IN (R162, R165): a prompt, which for GETC is empty, then the blocking read -/

/-- What GETC and IN leave in `t`, begun in `s`, after writing `prompt`: the word the blocking read finds in R0, echoed by
IN; or, where it finds nothing, the hold. -/
structure ReadBegun (h : Hold) (prompt : List Byte) (s t : State) : Prop where
  regs : RegsExcept s t 0#3
  pc : t.pc = s.pc
  cond : t.cond = s.cond
  run : t.run = s.run
  mem : t.mem = s.mem
  input : SameInput (s.kbdGet params).2 t
  found : ∀ w, (s.kbdGet params).1 = some w →
    t.reg 0#3 = w ∧ t.hold = none ∧ t.out = s.out ++ prompt ++ heldEcho h w
  nothing : (s.kbdGet params).1 = none → t.reg 0#3 = s.reg 0#3 ∧ t.hold = some h ∧ t.out = s.out ++ prompt

theorem resumeHold_emit_readBegun {h : Hold} (hk : h = .getc ∨ h = .input) (prompt : List Byte) (s : State) :
    ReadBegun h prompt s (resumeHold params h (s.emit prompt)) := by
  have k := s.kbdGet_keyboardOnly params
  have hg := s.kbdGet_emit params prompt
  cases e : (s.kbdGet params).1 with
  | none =>
    rw [resumeHold_of_nothing (s.emit prompt) hk params (by rw [hg, e]), hg]
    exact ⟨fun j _ => k.reg j, k.pc, k.cond, k.run, k.mem, SameInput.refl _, fun _ hw => by simp [e] at hw,
      fun _ => ⟨k.reg _, rfl, by simp [k.out]⟩⟩
  | some w =>
    rw [resumeHold_of_found (s.emit prompt) hk params w (by rw [hg, e]), hg]
    refine ⟨fun j hj => by simp [trapReg, hj, k.reg], k.pc, k.cond, k.run, k.mem, SameInput.refl _, fun v hv => ?_,
      fun hn => by simp [e] at hn⟩
    obtain rfl : w = v := Option.some.inj (e.symm.trans hv)
    exact ⟨by simp [trapReg], rfl, by simp [k.out]⟩

theorem exec_trapIn (s : State) : exec .trapIn s = .next (resumeHold params .input (s.emit params.inPrompt)) :=
  exec_eq_effect .trapIn s

theorem exec_trapGetc (s : State) : exec .trapGetc s = .next (resumeHold params .getc s) :=
  exec_eq_effect .trapGetc s

theorem State.emit_nil (s : State) : s.emit [] = s := by simp [State.emit]

theorem exec_trapIn_readBegun (s : State) : ∃ t, exec .trapIn s = .next t ∧ ReadBegun .input params.inPrompt s t :=
  ⟨_, exec_trapIn s, resumeHold_emit_readBegun (.inr rfl) _ s⟩

theorem exec_trapGetc_readBegun (s : State) : ∃ t, exec .trapGetc s = .next t ∧ ReadBegun .getc [] s t :=
  ⟨_, exec_trapGetc s, by simpa only [State.emit_nil] using resumeHold_emit_readBegun (.inl rfl) [] s⟩

section
variable {h : Hold} {prompt : List Byte} {s t : State} (r : ReadBegun h prompt s t)
include r

/-- With a byte in front, the byte is taken. -/
theorem ReadBegun.of_front (b : Byte) (rest : List Byte) (hi : s.inp = b :: rest) :
    t.reg 0#3 = zext16 b ∧ t.hold = none ∧ t.out = s.out ++ prompt ++ heldEcho h (zext16 b) ∧ t.inp = rest ∧
      t.supply = s.supply := by
  have e := s.kbdGet_of_front params b rest hi
  obtain ⟨hw, hh, ho⟩ := r.found (zext16 b) (by rw [e])
  obtain ⟨hin, hs, -⟩ := r.input
  exact ⟨hw, hh, ho, by rw [hin, e], by rw [hs, e]⟩

/-- At the stream's end, `EOS_VALUE` is read and nothing taken. -/
theorem ReadBegun.of_ended (hi : s.inp = []) (hs : s.supply = .ended) :
    t.reg 0#3 = params.eosValue ∧ t.hold = none ∧ t.out = s.out ++ prompt ++ heldEcho h params.eosValue ∧ t.inp = [] ∧
      t.supply = .ended := by
  have e := s.kbdGet_of_ended params hi hs
  obtain ⟨hw, hh, ho⟩ := r.found params.eosValue (by rw [e])
  obtain ⟨hin, hsup, -⟩ := r.input
  exact ⟨hw, hh, ho, by rw [hin, e, hi], by rw [hsup, e, hs]⟩

end

/-- GETC writes nothing, whatever the read finds. -/
theorem ReadBegun.out_of_getc {s t : State} (r : ReadBegun .getc [] s t) : t.out = s.out := by
  cases e : (s.kbdGet params).1 with
  | none => obtain ⟨-, -, ho⟩ := r.nothing e; simpa using ho
  | some w => obtain ⟨-, -, ho⟩ := r.found w e; simpa [heldEcho] using ho

/-- Settles O38: GETC is the blocking read into R0, and the front, the end and no input are its answers. -/
theorem getcForm : Obligations.GetcForm := by
  refine ⟨fun w h => decodeWord_of_trapMask w h (by decide) (by decide), fun s b rest hi => ?_,
    fun s hi hs => ?_, fun s hi hs => ?_, fun s => ?_⟩
  · obtain ⟨t, ht, r⟩ := exec_trapGetc_readBegun s
    obtain ⟨hw, hh, -, hin, hsup⟩ := r.of_front b rest hi
    exact ⟨t, ht, hw, r.regs, hh, hin, hsup, r.pc, r.cond, r.run, r.out_of_getc, r.mem⟩
  · obtain ⟨t, ht, r⟩ := exec_trapGetc_readBegun s
    obtain ⟨hw, hh, -, hin, hsup⟩ := r.of_ended hi hs
    exact ⟨t, ht, hw, r.regs, hh, hin, hsup, r.pc, r.cond, r.run, r.out_of_getc, r.mem⟩
  · have e := s.kbdGet_of_withheld params hi hs
    rw [exec_trapGetc, resumeHold_of_nothing s (.inl rfl) params (by rw [e]), e]
    rfl
  · obtain ⟨t, ht, r⟩ := exec_trapGetc_readBegun s
    refine ⟨t, ht, r.regs, r.pc, r.cond, r.run, r.out_of_getc, r.mem, r.input, fun w hw => ?_, fun hn => ?_⟩
    · obtain ⟨hr, hh, -⟩ := r.found w hw
      exact ⟨hr, hh⟩
    · obtain ⟨hr, hh, -⟩ := r.nothing hn
      exact ⟨hr, hh⟩

/-- Settles O43: IN is its prompt and then the blocking read, echoed into the output and stored in R0. -/
theorem inForm : Obligations.InForm := by
  refine ⟨fun w h => decodeWord_of_trapMask w h (by decide) (by decide), fun s b rest hi => ?_,
    fun s hi hs => ?_, fun s hi hs => ?_, fun s => ?_⟩
  · obtain ⟨t, ht, r⟩ := exec_trapIn_readBegun s
    obtain ⟨hw, hh, ho, hin, hsup⟩ := r.of_front b rest hi
    have hecho : heldEcho .input (zext16 b) = [b] := by simp [heldEcho, low8_zext16]
    exact ⟨t, ht, hecho ▸ ho, hw, r.regs, hh, hin, hsup, r.pc, r.cond, r.run, r.mem⟩
  · obtain ⟨t, ht, r⟩ := exec_trapIn_readBegun s
    obtain ⟨hw, hh, ho, hin, hsup⟩ := r.of_ended hi hs
    exact ⟨t, ht, ho, hw, r.regs, hh, hin, hsup, r.pc, r.cond, r.run, r.mem⟩
  · have e : (s.emit params.inPrompt).kbdGet params = _ := State.kbdGet_of_withheld params _ hi hs
    rw [exec_trapIn, resumeHold_of_nothing _ (.inr rfl) params (by rw [e]), e]
    rfl
  · obtain ⟨t, ht, r⟩ := exec_trapIn_readBegun s
    exact ⟨t, ht, r.regs, r.pc, r.cond, r.run, r.mem, r.input, r.found, r.nothing⟩

/-! OUT and HALT (R163, R167) -/

/-- Settles O39: the row by mask and vector; the effect is one byte emitted. -/
theorem outForm : Obligations.OutForm :=
  ⟨fun w h => decodeWord_of_trapMask w h (by decide) (by decide), exec_eq_effect .trapOut⟩

/-- Settles O44: the row by mask and vector; the effect is the notice and a write of `run`. -/
theorem haltForm : Obligations.HaltForm :=
  ⟨fun w h => decodeWord_of_trapMask w h (by decide) (by decide), exec_eq_effect .trapHalt⟩

/-! The string routines PUTS and PUTSP (R164, R166, R173) -/

section
variable (bytesOf : Word → List Byte) (h : Hold) (s : State)

/-- A string routine emits what its walk gives, and completes if the walk met a zero word. -/
theorem routineString_of_walk (bs : List Byte) (ended : Bool)
    (e : stringWalk bytesOf s.mem lapWords (s.reg trapReg) = (bs, ended)) :
    routineString bytesOf h s = { s with out := s.out ++ bs, hold := if ended then none else some h } := by
  rw [routineString_eq, e]
  rfl

/-- Over a string ended by a zero word, a string routine emits its words' bytes and completes. -/
theorem routineString_of_string (ws : List Word) (hl : ws.length < 65536)
    (hk : ∀ (k : Nat) (h : k < ws.length), s.mem.read (s.reg 0#3 + BitVec.ofNat 16 k) = ws[k] ∧ ws[k] ≠ 0x0000#16)
    (hz : s.mem.read (s.reg 0#3 + BitVec.ofNat 16 ws.length) = 0x0000#16) :
    routineString bytesOf h s = { s with out := s.out ++ ws.flatMap bytesOf, hold := none } :=
  routineString_of_walk bytesOf h s _ true (stringWalk_string bytesOf s.mem ws lapWords _ hl hk hz)

/-- Over a memory with no zero word, a string routine emits a lap of memory and holds. -/
theorem routineString_of_noZeroWord (hz : NoZeroWord s.mem) :
    routineString bytesOf h s =
      { s with out := s.out ++ (List.range 65536).flatMap (fun k => bytesOf (s.mem.read (s.reg 0#3 + BitVec.ofNat 16 k))),
               hold := some h } :=
  routineString_of_walk bytesOf h s _ false (stringWalk_noZero bytesOf s.mem hz 65536 _)

/-- Where some cell is zero, a string routine completes. -/
theorem routineString_hold_of_zeroWord (hz : ¬ NoZeroWord s.mem) : (routineString bytesOf h s).hold = none := by
  have ended : (stringWalk bytesOf s.mem lapWords (s.reg trapReg)).2 = true := by
    by_contra hne
    exact hz (stringWalk_lap_unended bytesOf s.mem _ (by simpa using hne))
  rw [routineString_eq, ended]
  rfl

end

theorem exec_trapPuts (s : State) : exec .trapPuts s = .next (routineString putsBytes .puts s) :=
  exec_eq_effect .trapPuts s

theorem exec_trapPutsp (s : State) : exec .trapPutsp s = .next (routineString putspBytes .putsp s) :=
  exec_eq_effect .trapPutsp s

/-- One byte a word, `flatMap` is `map`. -/
theorem flatMap_putsBytes {α : Type} (f : α → Word) (l : List α) :
    l.flatMap (fun a => putsBytes (f a)) = l.map (fun a => low8 (f a)) :=
  List.map_eq_flatMap.symm

/-- The low byte always comes first. -/
theorem putspBytes_eq_cons (w : Word) :
    putspBytes w = low8 w :: (if high8 w = 0x00#8 then [] else [high8 w]) := by
  unfold putspBytes
  split <;> rfl

/-- Settles O40: the row by mask and vector; the string's words, one byte each. -/
theorem putsForm : Obligations.PutsForm := by
  refine ⟨fun w h => decodeWord_of_trapMask w h (by decide) (by decide), fun s ws hl hk hz => ?_⟩
  rw [exec_trapPuts, routineString_of_string _ _ s ws hl hk hz]
  have hb : ws.flatMap putsBytes = ws.map low8 := flatMap_putsBytes id ws
  rw [hb]
  rfl

/-- Settles O41: the row by mask and vector; the string's words, one byte or two each. -/
theorem putspForm : Obligations.PutspForm := by
  refine ⟨fun w h => decodeWord_of_trapMask w h (by decide) (by decide), fun s ws hl hk hz => ?_⟩
  rw [exec_trapPutsp, routineString_of_string _ _ s ws hl hk hz, funext putspBytes_eq_cons]
  rfl

/-- Settles O42: a lap either meets a zero word, or is all of memory; held, the routine is run again. -/
theorem stringRoutinesEndOnlyAtAZeroWord : Obligations.StringRoutinesEndOnlyAtAZeroWord := by
  intro s lap lapp hlap hlapp
  refine ⟨fun hz => ⟨_, _, exec_trapPuts s, routineString_hold_of_zeroWord _ _ s hz, exec_trapPutsp s,
    routineString_hold_of_zeroWord _ _ s hz⟩, fun hz => ?_⟩
  have hputs : routineString putsBytes .puts s = { s with out := s.out ++ lap, hold := some .puts } := by
    rw [routineString_of_noZeroWord putsBytes .puts s hz, hlap, flatMap_putsBytes]
  have hputsp : routineString putspBytes .putsp s = { s with out := s.out ++ lapp, hold := some .putsp } := by
    rw [routineString_of_noZeroWord putspBytes .putsp s hz, hlapp]
  refine ⟨by rw [exec_trapPuts, hputs], by rw [exec_trapPutsp, hputsp], fun hr hh => ?_, fun hr hh => ?_⟩
  · rw [step_held s .puts hr hh, resumeHold, routinePuts, hputs, ← hh]
  · rw [step_held s .putsp hr hh, resumeHold, routinePutsp, hputsp, ← hh]

/-! What TRAP leaves alone (R171) -/

/-- A TRAP row is none of the instructions that write pc or COND. -/
theorem isTransfer_of_isTrap (i : Instr) (h : isTrap i = true) : isTransfer i = false ∧ flagDest i = none := by
  cases i <;> cases h <;> exact ⟨rfl, rfl⟩

/-- A TRAP row changes no cell and no register but R0, and R0 and the input by GETC and IN alone. -/
theorem effect_trapFrame (i : Instr) (hw : i.wf params = true) (h : isTrap i = true) (s : State) :
    (effect params i s).mem = s.mem ∧ RegsExcept s (effect params i s) 0#3 ∧
      (i ≠ .trapGetc → i ≠ .trapIn → (effect params i s).reg 0#3 = s.reg 0#3 ∧ SameInput s (effect params i s)) := by
  cases i
  case trap v =>
    rw [effect_trap params v s hw]
    exact ⟨rfl, fun _ _ => rfl, fun _ _ => ⟨rfl, SameInput.refl s⟩⟩
  case trapGetc =>
    obtain ⟨-, -, hm, -, -, hr, -⟩ := routineGetc_frame params s
    exact ⟨hm, hr, fun hne => absurd rfl hne⟩
  case trapIn =>
    obtain ⟨-, -, hm, -, -, hr, -⟩ := routineInRead_frame params (s.emit params.inPrompt)
    exact ⟨hm, hr, fun _ hne => absurd rfl hne⟩
  case trapOut | trapPuts | trapPutsp | trapHalt =>
    exact ⟨rfl, fun _ _ => rfl, fun _ _ => ⟨rfl, SameInput.refl s⟩⟩
  all_goals cases h

/-- Settles O47: pc and COND as no writer of either is a TRAP row; the rest row by row. -/
theorem trapFrame : Obligations.TrapFrame := by
  intro i s t hw h ht
  rw [(exec_next_iff i s t).mp ht]
  obtain ⟨hpc, hcond⟩ := isTransfer_of_isTrap i h
  exact ⟨effect_pc params i hpc s, effect_cond_of_flagDest_none params i hcond s, effect_trapFrame i hw h s⟩

end Sys2Proof.Machine
end

section
/-! The engine never stops of itself (spec/60_exceptions.md R180): a step answers a state wherever it is enabled. -/

namespace Sys2Proof.Machine

/-- A step is enabled exactly while RUNNING (spec/40_cycle.md R113): it goes on with the held routine, or runs the fetched
instruction, and either has a next state. -/
theorem exists_step_next_iff (s : State) : (∃ t, step s = .next t) ↔ s.run = .running := by
  refine ⟨fun ⟨t, ht⟩ => ((step_next_iff s t).mp ht).1, fun hr => ?_⟩
  cases hh : s.hold with
  | some h => exact ⟨_, step_held s h hr hh⟩
  | none => exact ⟨_, by rw [step_running s hr hh, exec_eq_effect]⟩

/-- Settles O8: an instruction answers its effect; a running step, by whether a routine is held. -/
theorem everyInstructionAnswersANextState : Obligations.EveryInstructionAnswersANextState :=
  ⟨fun i s => ⟨effect params i s, exec_eq_effect i s⟩, fun s hr => (exists_step_next_iff s).mpr hr⟩

end Sys2Proof.Machine
end

section
/-! The invariant (spec/10_state.md, spec/70_reset_and_hazards.md): reset and launch meet it, every step keeps it; and
where a launch image stands. -/

namespace Sys2Proof.Machine

/-! Holds: where a routine may be held (spec/40_cycle.md R116, spec/45_trap.md R173) -/

/-- The clauses of `StateInv` about holds: a routine held only while RUNNING, a string routine only over a memory with no
zero word. -/
structure HoldMayBe (s : State) : Prop where
  runs : s.hold ≠ none → s.run = .running
  string : s.hold = some .puts ∨ s.hold = some .putsp → NoZeroWord s.mem

theorem HoldMayBe.of_hold_none {s : State} (h : s.hold = none) : HoldMayBe s :=
  ⟨fun hn => absurd h hn, fun hs => by simp [h] at hs⟩

theorem StateInv.of_holdMayBe {p : Config.Params} {s : State} (hm : s.mem.wf) (hc : CondIsFlag p s)
    (hh : HoldMayBe s) : StateInv p s :=
  ⟨hm, hc, hh.runs, hh.string⟩

/-- A string routine completes, or holds over a memory with no zero word. -/
theorem routineString_hold_cases (bytesOf : Word → List Byte) (h : Hold) (s : State) :
    (routineString bytesOf h s).hold = none ∨ (routineString bytesOf h s).hold = some h ∧ NoZeroWord s.mem := by
  by_cases hz : NoZeroWord s.mem
  · exact .inr ⟨by rw [routineString_of_noZeroWord bytesOf h s hz], hz⟩
  · exact .inl (routineString_hold_of_zeroWord bytesOf h s hz)

/-- A routine completes or is held, and a string routine is held only over a memory with no zero word. -/
theorem resumeHold_hold_cases (p : Config.Params) (h : Hold) (s : State) :
    (resumeHold p h s).hold = none ∨
      (resumeHold p h s).hold = some h ∧ (h = .puts ∨ h = .putsp → NoZeroWord s.mem) := by
  cases h
  case getc =>
    obtain ⟨-, -, -, -, -, -, hh⟩ := routineGetc_frame p s
    exact hh.imp_right fun e => ⟨e, by simp⟩
  case input =>
    obtain ⟨-, -, -, -, -, -, hh⟩ := routineInRead_frame p s
    exact hh.imp_right fun e => ⟨e, by simp⟩
  case puts => exact (routineString_hold_cases putsBytes .puts s).imp_right fun ⟨e, hz⟩ => ⟨e, fun _ => hz⟩
  case putsp => exact (routineString_hold_cases putspBytes .putsp s).imp_right fun ⟨e, hz⟩ => ⟨e, fun _ => hz⟩

/-- A routine run while RUNNING, begun or tried again, holds only where it may. -/
theorem resumeHold_holdMayBe (p : Config.Params) (h : Hold) (s : State) (hr : s.run = .running) :
    HoldMayBe (resumeHold p h s) := by
  rcases resumeHold_hold_cases p h s with e | ⟨e, hz⟩
  · exact .of_hold_none e
  · refine ⟨fun _ => by rw [resumeHold_run, hr], fun hs => ?_⟩
    rw [resumeHold_mem]
    exact hz (by simpa [e] using hs)

/-- An instruction run while RUNNING with nothing held leaves a hold only where it may: the four routines that can hold
are those `resumeHold` tries again, and the rest hold nothing. -/
theorem effect_holdMayBe (p : Config.Params) (i : Instr) (hi : i.wf p = true) (s : State) (hr : s.run = .running)
    (hh : s.hold = none) : HoldMayBe (effect p i s) := by
  cases i
  case trapGetc => exact resumeHold_holdMayBe p .getc s hr
  case trapIn => exact resumeHold_holdMayBe p .input (s.emit p.inPrompt) hr
  case trapPuts => exact resumeHold_holdMayBe p .puts s hr
  case trapPutsp => exact resumeHold_holdMayBe p .putsp s hr
  case trap v => rw [effect_trap p v s hi]; exact .of_hold_none hh
  case br => exact .of_hold_none (by simp only [effect]; split <;> exact hh)
  case ld | ldi | ldr | sti => exact .of_hold_none (by simp [effect, State.indirect, hh])
  all_goals exact .of_hold_none hh

/-! COND (R24) -/

/-- An instruction leaves COND, or the flag of the value it wrote. -/
theorem effect_condIsFlag (p : Config.Params) (i : Instr) (s : State) (h : CondIsFlag p s) :
    CondIsFlag p (effect p i s) := by
  cases hf : flagDest i with
  | none => rwa [CondIsFlag, effect_cond_of_flagDest_none p i hf]
  | some dr =>
    rw [CondIsFlag, ← effect_setCC p i dr hf, State.setCC_cond]
    exact flagOf_mem_flags p _

theorem resumeHold_cond (p : Config.Params) (h : Hold) (s : State) : (resumeHold p h s).cond = s.cond := by
  cases h
  case getc => obtain ⟨-, h, -⟩ := routineGetc_frame p s; exact h
  case input => obtain ⟨-, h, -⟩ := routineInRead_frame p s; exact h
  case puts | putsp => rfl

@[simp] theorem State.fetch_cond (p : Config.Params) (s : State) : (s.fetch p).2.cond = s.cond := by
  simp [State.fetch_eq]

/-! The canonical form of memory (R27) -/

theorem State.fetch_mem_wf (p : Config.Params) (s : State) (h : s.mem.wf) : (s.fetch p).2.mem.wf := by
  rw [State.fetch_eq]
  exact s.memRead_mem_wf p s.pc h

/-- An instruction changes memory by `MemRead` and by writes of a cell, and both keep the canonical form. -/
theorem effect_mem_wf (p : Config.Params) (i : Instr) (s : State) (h : s.mem.wf) : (effect p i s).mem.wf := by
  cases i
  case ld | ldr => exact s.memRead_mem_wf p _ h
  case ldi => exact State.memRead_mem_wf p _ _ (s.memRead_mem_wf p _ h)
  case st | str => exact Memory.wf_write _ _ _ h
  case sti => exact Memory.wf_write _ _ _ (s.memRead_mem_wf p _ h)
  case br => simp only [effect]; split <;> exact h
  case trap v => simpa only [effect, trapRoutine_mem] using h
  case trapGetc => exact (resumeHold_mem p .getc s).symm ▸ h
  case trapIn => exact (resumeHold_mem p .input (s.emit p.inPrompt)).symm ▸ h
  all_goals exact h

/-! The invariant: at launch, at reset, and over a step -/

/-- A launch image keeps the canonical form, and nothing is held before the first step. -/
theorem State.launchWith_stateInv (p : Config.Params) (hc : p.resetCond ∈ p.flags) (o : Word) (ws : List Word) :
    StateInv p (State.launchWith p o ws) :=
  .of_holdMayBe (Memory.wf_load _ o ws (State.resetWith_mem_wf p)) hc (.of_hold_none rfl)

/-- Reset is the launch of the empty image. -/
theorem State.resetWith_stateInv (p : Config.Params) (hc : p.resetCond ∈ p.flags) : StateInv p (State.resetWith p) :=
  State.launchWith_stateInv p hc 0 []

/-- A step keeps the invariant, at any parameters: a held routine changes neither memory nor COND, and a fetched
instruction keeps each clause. -/
theorem stepWith_stateInv (p : Config.Params) {s t : State} (h : StateInv p s) (ht : stepWith p s = .next t) :
    StateInv p t := by
  obtain ⟨hm, hc, -, -⟩ := h
  obtain ⟨hr, ⟨k, -, rfl⟩ | ⟨hh, rfl⟩⟩ := (stepWith_next_iff p s t).mp ht
  · exact .of_holdMayBe (by rwa [resumeHold_mem]) (by rwa [CondIsFlag, resumeHold_cond])
      (resumeHold_holdMayBe p k s hr)
  · have hf : CondIsFlag p (s.fetch p).2 := by rwa [CondIsFlag, State.fetch_cond]
    exact .of_holdMayBe (effect_mem_wf p _ _ (s.fetch_mem_wf p hm)) (effect_condIsFlag p _ _ hf)
      (effect_holdMayBe p _ (decodeWord_wf p _) _ (by rw [State.fetch_run, hr]) (by rw [State.fetch_hold, hh]))

/-- Settles O10: the spec's COND at reset is a flag. -/
theorem resetMeetsTheInvariant : Obligations.ResetMeetsTheInvariant :=
  State.resetWith_stateInv params (by decide)

/-- Settles O12: a step of the machine is a step at the spec's parameters. -/
theorem stepKeepsTheInvariant : Obligations.StepKeepsTheInvariant :=
  fun s _ h ht => stepWith_stateInv params h (step_eq_stepWith s ▸ ht)

/-- Settles O57: of the legal parameters' constraints, that COND resets to a flag is all the invariant needs. -/
theorem stepKeepsTheInvariantAtAnyParameters : Obligations.StepKeepsTheInvariantAtAnyParameters := by
  intro p ⟨_, _, _, _, _, hc⟩
  exact ⟨State.resetWith_stateInv p hc, fun _ _ => stepWith_stateInv p⟩

/-! Where a launch image stands (R212) -/

/-- Placing words leaves every cell that is not one of theirs. -/
theorem Memory.read_load_of_ne (m : Memory) (o a : Word) (ws : List Word)
    (h : ∀ k : Nat, k < ws.length → a ≠ o + BitVec.ofNat 16 k) : (m.load o ws).read a = m.read a := by
  induction ws generalizing m o with
  | nil => rfl
  | cons w ws ih =>
    have h0 : a ≠ o := by simpa using h 0 (by simp)
    rw [Memory.load, ih _ _ fun k hk => by rw [word_add_succ]; exact h (k + 1) (by simpa using hk)]
    simp [h0]

/-- Placed words that do not overrun themselves stand one after another from the origin. -/
theorem Memory.read_load (m : Memory) (o : Word) (ws : List Word) (hl : ws.length ≤ 65536) (k : Nat)
    (hk : k < ws.length) : (m.load o ws).read (o + BitVec.ofNat 16 k) = ws[k] := by
  induction ws generalizing m o k with
  | nil => simp at hk
  | cons w ws ih =>
    rw [List.length_cons] at hl hk
    cases k with
    | zero =>
      have hn : ∀ j : Nat, j < ws.length → o + BitVec.ofNat 16 0 ≠ o + 1#16 + BitVec.ofNat 16 j := by
        intro j hj
        bv_omega
      rw [Memory.load, Memory.read_load_of_ne _ _ _ _ hn]
      simp
    | succ k =>
      rw [← word_add_succ]
      exact ih _ _ (by omega) k (by omega)

/-- Settles O11: an image that fits neither wraps nor meets itself, so its cells are read back and no other is touched. -/
theorem launchPlacesTheImage : Obligations.LaunchPlacesTheImage := by
  intro o ws hfit
  refine ⟨Memory.read_load _ o ws (by omega), fun a ha => ?_, rfl, rfl,
    State.launchWith_stateInv params (by decide) o ws⟩
  have hn : ∀ k : Nat, k < ws.length → a ≠ o + BitVec.ofNat 16 k := by
    intro k hk
    bv_omega
  exact Memory.read_load_of_ne _ o a ws hn

end Sys2Proof.Machine
end
